-- ==== Sys2Proof/Word.lean ====
section
/-! DEFINITION. The block's word and byte (spec 00_scope.md R8: a 32-bit word has bits 31 down to 0, bit 0 the least
significant; every value is unsigned). -/

namespace Sys2Proof

/-- A 32-bit word: a bus value, a word of `V`, `ACC`, `DIN`, a command word (R8, R61). -/
abbrev Word := BitVec 32

/-- A byte of a Block, of the IntermediateBuffer or of a digest (R10). -/
abbrev Byte := BitVec 8

end Sys2Proof
end

