-- ==== Sys2Proof/Config.lean ====
section
/-! DEFINITION. What is fixed for one instance of the block (spec 00_scope.md R7) and the one free value the spec leaves
open (10_state.md R22). The values of the defaults and the sizes stand in Machine/Constants.lean. -/

namespace Sys2Proof

/-- `P_M`, the accumulator length of the instance in bytes: "one of {64, 128}; fixed per instance" (R7, R34). -/
inductive AccLen where
  | m64
  | m128
deriving DecidableEq, Repr

/-- Eight 32-bit words: the chaining state `V[0..7]` and the initial value `IV[0..7]` (R20, R21, R131). -/
structure Chain where
  v0 : Word
  v1 : Word
  v2 : Word
  v3 : Word
  v4 : Word
  v5 : Word
  v6 : Word
  v7 : Word
deriving DecidableEq, Repr

/-- The parameters of one instance (R7). `step` takes the state alone, so the state carries them as data that no step
changes (DESIGN CHOICE, log 1). -/
structure Params where
  /-- `P_M`, read from `CFG` (R34). -/
  accLen : AccLen
  /-- `P_IV` (R131). -/
  iv : Chain
  /-- `P_TLO`, the constant of rounds 0 to 15 (R132). -/
  tLo : Word
  /-- `P_THI`, the constant of rounds 16 to 63 (R132). -/
  tHi : Word
  /-- `P_BASE`, the base address of the register window on the host bus (R60). -/
  base : Nat
deriving DecidableEq, Repr

/-- The value of the n-th read of a `Vi` or an `ACCk` made while a command executes: "any value; a model draws it freely
and assumes nothing of it" (R22, R24, 93_implementation_defined.md U1). It has no body: nothing can be proved of it
(log 6). -/
opaque Config.freeRead : Nat → Word

end Sys2Proof
end

