-- ==== Sys2Proof/Machine/Constants.lean ====
section
/-! DEFINITION. The numbers of the spec's parameter table (00_scope.md R7) and the default constants of
41_compression.md R131 and R132. -/

namespace Sys2Proof

/-- `P_M` in bytes (R7). -/
def AccLen.bytes : AccLen → Nat
  | .m64 => 64
  | .m128 => 128

/-- Words of `ACC` and of `DIN`: `P_M / 4` (R24, R26). -/
def AccLen.words (m : AccLen) : Nat := m.bytes / 4

/-- Compression chunks of the accumulator, and compressions per digest: `P_M / 64` (R7, R190). -/
def AccLen.chunks (m : AccLen) : Nat := m.bytes / 64

/-- `P_N`, the bytes of a Block: of the host's procedure only, the block counts nothing (R7, R178). -/
def blockBytes : Nat := 4096

/-- The default `IV` (R131, PRESUMED by the spec itself from the SM3 standard, log 3). -/
def ivDefault : Chain where
  v0 := 0x7380166F
  v1 := 0x4914B2B9
  v2 := 0x172442D7
  v3 := 0xDA8A0600
  v4 := 0xA96F30BC
  v5 := 0x163138AA
  v6 := 0xE38DEE4D
  v7 := 0xB0FB0E4E

/-- The default `T_LO` (R132, log 3). -/
def tLoDefault : Word := 0x79CC4519

/-- The default `T_HI` (R132, log 3). -/
def tHiDefault : Word := 0x7A879D8A

/-- The instance `State.reset` describes: the default constants, `P_M = 128` and `P_BASE = 0` (DESIGN CHOICE, logs 1
and 2: both are OPEN parameters of R7; every statement is made for every `Params`). -/
def paramsDefault : Params where
  accLen := .m128
  iv := ivDefault
  tLo := tLoDefault
  tHi := tHiDefault
  base := 0

end Sys2Proof
end

