-- ==== Sys2Proof/Syntax.lean ====
section
/-! DEFINITION. The commands of the block, one constructor per row of spec/opcode_table.json, and the error codes
(spec 30_encoding.md R91 to R93, 60_exceptions.md R211). -/

namespace Sys2Proof

/-- A command. Every operand but `K` is implicit (R93). -/
inductive Instr where
  /-- NOP, no operation (R118). -/
  | nop
  /-- INITV, load the initial value (R143). -/
  | initv
  /-- CLRACC, clear the accumulator (R171). -/
  | clracc
  /-- FOLD, XOR the staged chunk into the accumulator (R173). -/
  | fold
  /-- CMPDIN, compress the input buffer into the chaining state (R144). -/
  | cmpdin
  /-- CMPACC K, compress chunk `K` of the accumulator into the chaining state (R145); `K` is the field of R93. -/
  | cmpacc (k : BitVec 1)
  /-- FINAL, finalize the accumulator into a digest (R192). -/
  | final
deriving DecidableEq, Repr

/-- The errors of the host interface (R211); codes 4 to 7 are "never produced" and have no constructor. -/
inductive ErrCode where
  /-- Code 1: a command word with a reserved `OP` or a non-zero reserved bit (R213). -/
  | illop
  /-- Code 2: CMPACC with `K = 1` on an instance with `P_M = 64` (R215). -/
  | badK
  /-- Code 3: a write to `CMD`, `Vi` or `DINk` while busy (R214). -/
  | busyWr
deriving DecidableEq, Repr

end Sys2Proof
end

