-- ==== Sys2Proof/WellFormed.lean ====
section
/-! DEFINITION. Which commands an instance accepts (spec 30_encoding.md R93). -/

namespace Sys2Proof

/-- "`K` is legal only when `K < P_M / 64`"; every other command is legal on every instance (R93, R94). -/
def Instr.wf (m : AccLen) : Instr → Bool
  | .nop => true
  | .initv => true
  | .clracc => true
  | .fold => true
  | .cmpdin => true
  | .cmpacc k => decide (k.toNat < m.chunks)
  | .final => true

end Sys2Proof
end

