-- ==== Sys2Proof/Decode.lean ====
section
/-! DEFINITION. Decoding a command word, total on all 2^32 words and rejecting by name (spec 30_encoding.md R91 to R96),
and after it the encoder of the same tables. -/

namespace Sys2Proof

/-- Field `OP`, bits 3:0 (R91). -/
def opField (v : Word) : BitVec 4 := v.extractLsb' 0 4

/-- Field `K`, bit 4 (R91, R93). -/
def kField (v : Word) : BitVec 1 := v.extractLsb' 4 1

/-- Field `RSVD`, bits 31:5 (R91). -/
def rsvdField (v : Word) : BitVec 27 := v.extractLsb' 5 27

/-- The operation map of R92 on the value of `OP`; `none` is a reserved operation (0x7 to 0xF, R95). -/
def operation (op : BitVec 4) (k : BitVec 1) : Option Instr :=
  match op.toNat with
  | 0 => some .nop
  | 1 => some .initv
  | 2 => some .clracc
  | 3 => some .fold
  | 4 => some .cmpdin
  | 5 => some (.cmpacc k)
  | 6 => some .final
  | _ => none

/-- `decode(v)` of R94, the tests in its order: reserved bits, reserved operation, `K` outside CMPACC (all ILLOP), then
a `K` the instance's accumulator does not have (BADK, R215). -/
def decode (m : AccLen) (v : Word) : Except ErrCode Instr :=
  if rsvdField v ≠ 0 then .error .illop
  else
    match operation (opField v) (kField v) with
    | none => .error .illop
    | some i =>
      if kField v = 1 ∧ opField v ≠ 5 then .error .illop
      else if i.wf m then .ok i
      else .error .badK

/-- The `OP` value of R92. -/
def Instr.op : Instr → BitVec 4
  | .nop => 0x0
  | .initv => 0x1
  | .clracc => 0x2
  | .fold => 0x3
  | .cmpdin => 0x4
  | .cmpacc _ => 0x5
  | .final => 0x6

/-- The `K` bit of the command word: "must be 0 for every other operation" than CMPACC (R91). -/
def Instr.kBit : Instr → BitVec 1
  | .nop => 0
  | .initv => 0
  | .clracc => 0
  | .fold => 0
  | .cmpdin => 0
  | .cmpacc k => k
  | .final => 0

/-- The command word of R92: `RSVD || K || OP`, with `RSVD = 0` (R91). -/
def encode (i : Instr) : Word := (0 : BitVec 27) ++ i.kBit ++ i.op

/-- The word of the opcode table's numbering: the low `nbits` bits of `w`, every higher bit 0; the block has one format
of 32 bits (R90). -/
def tableWord (nbits w : Nat) : Word := BitVec.ofNat 32 (w % 2 ^ nbits)

/-- The command the decoder reads from a table row's bits, on an instance with both accumulator chunks (`P_M = 128`,
where the eight words of R94 are all legal; log 14). -/
def decodeTableWord (nbits w : Nat) : Option Instr := (decode .m128 (tableWord nbits w)).toOption

end Sys2Proof
end

