-- ==== Sys2Proof/Machine/State.lean ====
section
/-! DEFINITION. The state of one instance of the block (spec 10_state.md R20 to R39), of the one host that drives it
(20_memory.md R64, R71) and the order in which they move; the reasons a step can stop; the state after reset. -/

namespace Sys2Proof.Machine

/-- The four stored fields of `STATUS` (R31). -/
structure Status where
  /-- Bit 0, `BUSY`: "1 from the acceptance of a legal command to its completion". -/
  busy : Bool
  /-- Bit 1, `DONE`: set when a command completes. -/
  done : Bool
  /-- Bit 2, `ERR`: set when an error is raised, sticky. -/
  err : Bool
  /-- Bits 6:4, `ECODE`: the code of the first error since `ERR` was last 0 (R211). -/
  ecode : BitVec 3
deriving DecidableEq, Repr

/-- The width of a bus access; only `word` is defined (R65). -/
inductive AccessSize where
  | byte
  | half
  | word
deriving DecidableEq, Repr

/-- One operation of the host's stream (R97, R98), at an address of the host bus (`P_BASE` plus an offset, R60). -/
inductive HostOp where
  /-- `WR`: `BusWrite` of a value. -/
  | wr (size : AccessSize) (addr : Nat) (val : Word)
  /-- `RD`: `BusRead`. -/
  | rd (size : AccessSize) (addr : Nat)
  /-- `L: RD reg` followed by `BNZ bit0, L`: read again while bit 0 of the value read is 1 (R98). DESIGN CHOICE, log 8:
  the branch takes no step of its own, since it is no bus transaction. -/
  | poll (addr : Nat)
deriving DecidableEq, Repr

/-- Whose step is next. The spec leaves the interleaving free (R64, R250); the state lists it as data (log 4). -/
inductive Turn where
  /-- The host issues its next operation. -/
  | host
  /-- The block advances its internal working registers by one round (R37, R142). -/
  | round
  /-- The block completes the executing command (R114). -/
  | complete
  /-- The platform asserts the hardware reset (R240). -/
  | reset
deriving DecidableEq, Repr

/-- The working registers A to H of the rounds (R37, R139). -/
structure Regs where
  a : Word
  b : Word
  c : Word
  d : Word
  e : Word
  f : Word
  g : Word
  h : Word
deriving DecidableEq, Repr

/-- The Compression Core at work (R37): one call of CF in progress and, for FINAL, the chunks still to come. -/
structure CoreRun where
  /-- The input state `S` of this call, kept for the feed-forward (R140). -/
  s : Chain
  /-- The working registers A to H. -/
  regs : Regs
  /-- The expanded words `W[0..67]` (R137). -/
  w : List Word
  /-- The combination words `W'[0..63]` (R137). -/
  wc : List Word
  /-- The round index: the next round to do, 64 when all are done. -/
  j : Nat
  /-- FINAL's compression-chunk index (R37, R190). -/
  q : Nat
  /-- The messages latched at acceptance and not begun yet (R72, R190). -/
  todo : List (List Word)
deriving DecidableEq, Repr

/-- What the block holds of the result between acceptance and completion (R112, R113): the result itself, or the
Compression Core on its way to the new `V` beside the new `ACC`. -/
inductive Job where
  | ready (v : Chain) (acc : List Word)
  | compress (run : CoreRun) (acc : List Word)
deriving DecidableEq, Repr

/-- The internal execution state of an executing command (R37): the accepted operation and `K`, and its job. -/
structure Running where
  cmd : Instr
  job : Job
deriving DecidableEq, Repr

/-- One instance, its host and the order of their steps. -/
structure State where
  /-- The parameters of the instance, among them `CFG` (R7, R34); no step changes them. -/
  params : Params
  /-- `V[0..7]` (R21). -/
  v : Chain
  /-- `ACC[0 .. P_M/4 - 1]` (R24). -/
  acc : List Word
  /-- `DIN[0 .. P_M/4 - 1]` (R26). -/
  din : List Word
  /-- `CTRL.IE` (R28). -/
  ie : Bool
  /-- `STATUS` (R31). -/
  status : Status
  /-- The internal execution state, held only while a command executes (R37). -/
  running : Option Running
  /-- The host's stream: what it has not issued yet, oldest first (R71; the model's own field, log 5). -/
  hostOps : List HostOp
  /-- Who moves next, oldest first (R64; the model's own field, log 4). -/
  turns : List Turn
  /-- The words the host has read, newest first (R97, R98; the model's own field, log 7). -/
  reads : List Word
  /-- How many unspecified values have been drawn (R22; the model's own field, log 6). -/
  draws : Nat
deriving DecidableEq, Repr

/-- Why the machine stops with a fault. The block itself has no faults (R210). -/
inductive Fault where
  /-- Raised by a host access at an address outside the 4096 bytes of the register window (R60): it is not this
  block's. Safe: nothing is claimed of what such an access does (log 9). -/
  | outsideWindow
deriving DecidableEq, Repr

/-- Why a step has no meaning. -/
inductive Refusal where
  /-- Raised by an arm of `exec` whose command has no meaning yet; no arm uses it. Safe. -/
  | notModelled (mnemonic : String)
  /-- Raised by a host access of 8 or 16 bits: "a model refuses it" (R65). Safe. -/
  | accessWidth
  /-- Raised by a host access at an offset that is not a multiple of 4: "a model refuses it" (R65). Safe. -/
  | misaligned
deriving DecidableEq, Repr

/-- The instance with parameters `p` right after a reset (R39, R241), no host operation pending. -/
def State.resetOf (p : Params) : State where
  params := p
  v := p.iv
  acc := List.replicate p.accLen.words 0
  din := List.replicate p.accLen.words 0
  ie := false
  status := { busy := false, done := false, err := false, ecode := 0 }
  running := none
  hostOps := []
  turns := []
  reads := []
  draws := 0

/-- The machine right after reset (R39, R241), for the default parameters (logs 1, 2, 3); the model's own fields are
empty (logs 4 to 7). -/
def State.reset : State := State.resetOf paramsDefault

end Sys2Proof.Machine
end

