-- ==== Sys2Proof/Machine/Operands.lean ====
section
/-! DEFINITION. The word operators and byte conversions of spec 00_scope.md R9 and R10, the words of `V`, and the
operand forms of the commands: a 16-word chunk of `DIN` or `ACC`, the zero accumulator, the byte views
(10_state.md R25, R27). -/

namespace Sys2Proof.Machine

/-- `rotl(a, n)`, the 32-bit left rotation by `n mod 32` places, by the formula of R9. -/
def rotl (a : Word) (n : Nat) : Word := (a <<< (n % 32)) ||| (a >>> (32 - n % 32))

/-- `be32(b0, b1, b2, b3)`: `b0` is the most significant byte (R10). -/
def be32 (b0 b1 b2 b3 : Byte) : Word :=
  (b0.setWidth 32 <<< 24) ||| (b1.setWidth 32 <<< 16) ||| (b2.setWidth 32 <<< 8) ||| b3.setWidth 32

/-- `bytes_be(w) = [w[31:24], w[23:16], w[15:8], w[7:0]]` (R10). -/
def bytesBe (w : Word) : List Byte :=
  [w.extractLsb' 24 8, w.extractLsb' 16 8, w.extractLsb' 8 8, w.extractLsb' 0 8]

/-- Word `k` of a byte sequence: bytes `4k` to `4k+3`, big-endian (R25, R27, R66). -/
def wordAt (x : List Byte) (k : Nat) : Word :=
  be32 (x.getD (4 * k) 0) (x.getD (4 * k + 1) 0) (x.getD (4 * k + 2) 0) (x.getD (4 * k + 3) 0)

/-- The `P_M/4` words of a `P_M`-byte sequence (R25, R67). -/
def packWords (m : AccLen) (x : List Byte) : List Word := (List.range m.words).map (wordAt x)

/-- The byte view of a word buffer: byte `4k + b` is bits `31 - 8b : 24 - 8b` of word `k` (R25, R27). -/
def byteView (ws : List Word) : List Byte := ws.flatMap bytesBe

/-- `V[i]` (R21). -/
def chainGet (c : Chain) (i : Fin 8) : Word :=
  match i with
  | 0 => c.v0
  | 1 => c.v1
  | 2 => c.v2
  | 3 => c.v3
  | 4 => c.v4
  | 5 => c.v5
  | 6 => c.v6
  | 7 => c.v7

/-- `V[i] <- x` (R21). -/
def chainSet (c : Chain) (i : Fin 8) (x : Word) : Chain :=
  match i with
  | 0 => { c with v0 := x }
  | 1 => { c with v1 := x }
  | 2 => { c with v2 := x }
  | 3 => { c with v3 := x }
  | 4 => { c with v4 := x }
  | 5 => { c with v5 := x }
  | 6 => { c with v6 := x }
  | 7 => { c with v7 := x }

/-- The eight words in order, `V[0]` first (R68). -/
def chainWords (c : Chain) : List Word := [c.v0, c.v1, c.v2, c.v3, c.v4, c.v5, c.v6, c.v7]

/-- The XOR of two states, word by word (R140). -/
def chainXor (x y : Chain) : Chain where
  v0 := x.v0 ^^^ y.v0
  v1 := x.v1 ^^^ y.v1
  v2 := x.v2 ^^^ y.v2
  v3 := x.v3 ^^^ y.v3
  v4 := x.v4 ^^^ y.v4
  v5 := x.v5 ^^^ y.v5
  v6 := x.v6 ^^^ y.v6
  v7 := x.v7 ^^^ y.v7

/-- "Before round 0 the working registers take the input state" (R139). -/
def regsOfChain (s : Chain) : Regs :=
  { a := s.v0, b := s.v1, c := s.v2, d := s.v3, e := s.v4, f := s.v5, g := s.v6, h := s.v7 }

/-- The working registers in the order A to H as a state (R139, R140). -/
def chainOfRegs (r : Regs) : Chain :=
  { v0 := r.a, v1 := r.b, v2 := r.c, v3 := r.d, v4 := r.e, v5 := r.f, v6 := r.g, v7 := r.h }

/-- Words `16q` to `16q + 15` of a word buffer: the message of compression chunk `q` (R93, R191); chunk 0 of `DIN` is
`DIN[0..15]` (R144). -/
def chunk (q : Nat) (ws : List Word) : List Word := (List.range 16).map fun j => ws.getD (16 * q + j) 0

/-- The compression chunks after the first, in order (R190). -/
def laterChunks (m : AccLen) (ws : List Word) : List (List Word) :=
  (List.range (m.chunks - 1)).map fun q => chunk (q + 1) ws

/-- `zeros(P_M/4)` (R119). -/
def zeros (m : AccLen) : List Word := List.replicate m.words 0

end Sys2Proof.Machine
end

