-- ==== Sys2Proof/Machine/Sm3.lean ====
section
/-! DEFINITION. The compression function CF (spec 41_compression.md R130 to R142). All sums are of 32-bit words and wrap
(R9, R141). -/

namespace Sys2Proof.Machine

/-- `T(j)`, the round constant before rotation (R132). -/
def tConst (p : Params) (j : Nat) : Word := if j ≤ 15 then p.tLo else p.tHi

/-- `FF(j, X, Y, Z)`: three-way XOR, from round 16 bitwise majority (R133). -/
def ff (j : Nat) (x y z : Word) : Word :=
  if j ≤ 15 then x ^^^ y ^^^ z else (x &&& y) ||| (x &&& z) ||| (y &&& z)

/-- `GG(j, X, Y, Z)`: three-way XOR, from round 16 bitwise choice (R134). -/
def gg (j : Nat) (x y z : Word) : Word :=
  if j ≤ 15 then x ^^^ y ^^^ z else (x &&& y) ||| (~~~x &&& z)

/-- `P0(X)`, used in the round (R135). -/
def p0 (x : Word) : Word := x ^^^ rotl x 9 ^^^ rotl x 17

/-- `P1(X)`, used in the message expansion (R136). -/
def p1 (x : Word) : Word := x ^^^ rotl x 15 ^^^ rotl x 23

/-- `W[j]` for `j >= 16`, from the words before it (R137). -/
def expandNext (w : List Word) (j : Nat) : Word :=
  p1 (w.getD (j - 16) 0 ^^^ w.getD (j - 9) 0 ^^^ rotl (w.getD (j - 3) 0) 15)
    ^^^ rotl (w.getD (j - 13) 0) 7 ^^^ w.getD (j - 6) 0

/-- The next `n` expanded words appended to those there are. -/
def expandFrom : Nat → List Word → List Word
  | 0, w => w
  | n + 1, w => expandFrom n (w ++ [expandNext w w.length])

/-- `W[0..67]` of a 16-word message: the message, then 52 words of the recurrence (R137). -/
def expandWords (b : List Word) : List Word := expandFrom 52 b

/-- `W'[0..63]`: `W'[j] = W[j] ^ W[j+4]` (R137). -/
def combineWords (w : List Word) : List Word := (List.range 64).map fun j => w.getD j 0 ^^^ w.getD (j + 4) 0

/-- Round `j` with its two expansion words; the eight assignments are simultaneous (R138). -/
def roundStep (p : Params) (j : Nat) (wj wcj : Word) (r : Regs) : Regs :=
  let ss1 := rotl (rotl r.a 12 + r.e + rotl (tConst p j) (j % 32)) 7
  let ss2 := ss1 ^^^ rotl r.a 12
  let tt1 := ff j r.a r.b r.c + r.d + ss2 + wcj
  let tt2 := gg j r.e r.f r.g + r.h + ss1 + wj
  { a := tt1, b := r.a, c := rotl r.b 9, d := r.c, e := p0 tt2, f := r.e, g := rotl r.f 19, h := r.g }

/-- `n` rounds from round `j` on. -/
def rounds (p : Params) : Nat → Nat → List Word → List Word → Regs → Regs
  | 0, _, _, _, r => r
  | n + 1, j, w, wc, r => rounds p n (j + 1) w wc (roundStep p j (w.getD j 0) (wc.getD j 0) r)

/-- `CF(S, B)`: 64 rounds and the feed-forward (R140). -/
def cf (p : Params) (s : Chain) (b : List Word) : Chain :=
  let w := expandWords b
  chainXor (chainOfRegs (rounds p 64 0 w (combineWords w) (regsOfChain s))) s

end Sys2Proof.Machine
end

