-- ==== Sys2Proof/Machine/Engine.lean ====
section
/-! DEFINITION. The Compression Core at work between acceptance and completion: the internal execution state of spec
10_state.md R37, advanced one round at a time. "None of this is observable" (41_compression.md R142): completion may
come after any number of rounds, and the result is that of the call brought to its end (DESIGN CHOICE, log 10). -/

namespace Sys2Proof.Machine

/-- Starts the call CF(`s`, `b`) as chunk `q`: the registers take the input state, the message is expanded (R137,
R139); `todo` are the messages to follow. -/
def coreLoad (s : Chain) (b : List Word) (q : Nat) (todo : List (List Word)) : CoreRun :=
  { s := s, regs := regsOfChain s, w := expandWords b, wc := combineWords (expandWords b), j := 0, q := q, todo := todo }

/-- The value of the running call once its remaining rounds are done: their registers with the feed-forward (R140). -/
def coreOut (p : Params) (c : CoreRun) : Chain :=
  chainXor (chainOfRegs (rounds p (64 - c.j) c.j c.w c.wc c.regs)) c.s

/-- The value after the messages still to come, each chained through CF (R196). -/
def coreFinish (p : Params) (c : CoreRun) : Chain := c.todo.foldl (cf p) (coreOut p c)

/-- One round; after the last, the next message is loaded, and after the last message nothing moves (R37, R71). -/
def coreTick (p : Params) (c : CoreRun) : CoreRun :=
  if c.j < 64 then
    { c with regs := roundStep p c.j (c.w.getD c.j 0) (c.wc.getD c.j 0) c.regs, j := c.j + 1 }
  else
    match c.todo with
    | [] => c
    | b :: rest => coreLoad (coreOut p c) b (c.q + 1) rest

/-- The result the job commits: the new `(V, ACC)` (R112, R114). -/
def jobResult (p : Params) : Job → Chain × List Word
  | .ready v acc => (v, acc)
  | .compress run acc => (coreFinish p run, acc)

/-- One round of the job's core; a finished result waits for its completion. -/
def jobTick (p : Params) : Job → Job
  | .ready v acc => .ready v acc
  | .compress run acc => .compress (coreTick p run) acc

end Sys2Proof.Machine
end

