-- ==== Sys2Proof/Machine/Flags.lean ====
section
/-! DEFINITION. The fields of `STATUS` and `CTRL` as words, every computation that changes them, and the interrupt
(spec 10_state.md R28 to R32, R35, 60_exceptions.md R211, R212, R218). -/

namespace Sys2Proof.Machine

/-- A one-bit field widened to a word: "unused bits read as 0" (R12). -/
def bitWord (b : Bool) : Word := (BitVec.ofBool b).setWidth 32

/-- The code of an error (R211). -/
def errBits : ErrCode → BitVec 3
  | .illop => 1
  | .badK => 2
  | .busyWr => 3

/-- `BusRead(0x004)`: `ECODE << 4 | ERR << 2 | DONE << 1 | BUSY` (R32). -/
def statusWord (st : Status) : Word :=
  (st.ecode.setWidth 32 <<< 4) ||| (bitWord st.err <<< 2) ||| (bitWord st.done <<< 1) ||| bitWord st.busy

/-- `BusWrite(0x004, v)`: bit 1 clears `DONE`, bit 2 clears `ERR` and `ECODE`; nothing else is written (R32). -/
def statusWrite (v : Word) (st : Status) : Status :=
  { st with
    done := st.done && !v.getLsbD 1
    err := st.err && !v.getLsbD 2
    ecode := if v.getLsbD 2 then 0 else st.ecode }

/-- `raise Error(code)`: the first error since the last clear is kept (R212). -/
def raiseError (c : ErrCode) (st : Status) : Status :=
  if st.err then st else { st with err := true, ecode := errBits c }

/-- The acceptance of a legal command: `DONE <- 0`, `BUSY <- 1` (R112). -/
def statusAccept (st : Status) : Status := { st with busy := true, done := false }

/-- The completion of a command: `BUSY <- 0`, `DONE <- 1` (R114). -/
def statusComplete (st : Status) : Status := { st with busy := false, done := true }

/-- An illegal command: the error, then `DONE <- 1`; `BUSY` stays (R111). -/
def statusIllegal (c : ErrCode) (st : Status) : Status := { raiseError c st with done := true }

/-- `STATUS` after a reset (R241). -/
def statusReset : Status := { busy := false, done := false, err := false, ecode := 0 }

/-- `BusRead(0x000)`: `zext_32(CTRL.IE)` (R29). -/
def ctrlWord (ie : Bool) : Word := bitWord ie

/-- The level-sensitive interrupt output: `CTRL.IE & STATUS.DONE` (R218, R252). -/
def State.irq (s : State) : Bool := s.ie && s.status.done

end Sys2Proof.Machine
end

