-- ==== Sys2Proof/Machine/Ops.lean ====
section
/-! DEFINITION. The shared operations on the state: raising an error (the block's only kind of exception, spec
60_exceptions.md R210, R212), presenting a command (40_command.md R110 to R112), its internal rounds and its completion
(R113, R114), and the reset (70_reset_and_hazards.md R241). -/

namespace Sys2Proof.Machine

/-- The command word's three fates at the decoder: illegal with an error, or legal with what it latches. -/
abbrev Presented := Except ErrCode Running

/-- `raise Error(code)`: only `STATUS.ERR` and `STATUS.ECODE` can change; there is no trap, no entry and no return
(R210, R212, R221). -/
def State.raise (s : State) (c : ErrCode) : State := { s with status := raiseError c s.status }

/-- `accept_illegal(code)`: the error, then `DONE <- 1`; no execution phase (R111). -/
def State.acceptIllegal (s : State) (c : ErrCode) : State := { s with status := statusIllegal c s.status }

/-- `accept_legal(op, K)`: `DONE <- 0`, `BUSY <- 1`, the command and its result latched; `V`, `ACC`, `DIN` not yet
changed (R112). -/
def State.acceptLegal (s : State) (r : Running) : State :=
  { s with status := statusAccept s.status, running := some r }

/-- A command at the decoder: dropped with BUSYWR while busy, whatever the word (R110, R214, R216); otherwise accepted
as illegal or as legal. -/
def State.present (s : State) (c : Presented) : State :=
  if s.status.busy then s.raise .busyWr
  else
    match c with
    | .error code => s.acceptIllegal code
    | .ok r => s.acceptLegal r

/-- The commit of a result: `(V, ACC) <- result`, `BUSY <- 0`, `DONE <- 1`, nothing executing (R114). -/
def State.commit (s : State) (result : Chain × List Word) : State :=
  { s with v := result.1, acc := result.2, status := statusComplete s.status, running := none }

/-- The completion step of the block agent, "enabled whenever a command is executing" (R114); with none executing it is
not enabled and nothing moves (log 16). -/
def State.complete (s : State) : State :=
  match s.running with
  | none => s
  | some r => s.commit (jobResult s.params r.job)

/-- One internal round of the executing command (R37, R142); nothing else changes. -/
def State.roundTick (s : State) : State :=
  match s.running with
  | none => s
  | some r => { s with running := some { r with job := jobTick s.params r.job } }

/-- Either reset of R240: every piece of the block's state takes the value of R241 and the executing command is aborted
(R117, R242). The parameters (`CFG` among them), the host's stream, the order of steps and what the host has read are
not the block's state and stay (log 15). -/
def State.resetBlock (s : State) : State :=
  { s with
    v := s.params.iv
    acc := zeros s.params.accLen
    din := zeros s.params.accLen
    ie := false
    status := statusReset
    running := none }

end Sys2Proof.Machine
end

