-- ==== Sys2Proof/Machine/Command.lean ====
section
/-! DEFINITION. The command without a unit: NOP (spec 40_command.md R118). -/

namespace Sys2Proof.Machine

/-- NOP: `Effect = (V, ACC)`; it goes through acceptance and completion like every command (R118). -/
def execNop (s : State) : Host.Outcome State Fault Refusal :=
  .next (s.present (.ok { cmd := .nop, job := .ready s.v s.acc }))

end Sys2Proof.Machine
end

