-- ==== Sys2Proof/Machine/Compression.lean ====
section
/-! DEFINITION. The commands of the Compression Core: INITV, CMPDIN, CMPACC (spec 41_compression.md R143 to R145). -/

namespace Sys2Proof.Machine

/-- INITV: `V <- IV`, committed at completion; `ACC` unchanged (R143). -/
def execInitv (s : State) : Host.Outcome State Fault Refusal :=
  .next (s.present (.ok { cmd := .initv, job := .ready s.params.iv s.acc }))

/-- CMPDIN: `V <- CF(V, DIN[0..15])`, committed at completion; `ACC` unchanged, `DIN[16..31]` not read (R144). -/
def execCmpdin (s : State) : Host.Outcome State Fault Refusal :=
  .next (s.present (.ok { cmd := .cmpdin, job := .compress (coreLoad s.v (chunk 0 s.din) 0 []) s.acc }))

/-- CMPACC K: `V <- CF(V, ACC[16K .. 16K+15])`, committed at completion; `ACC` is not cleared (R145). A `K` the
accumulator does not have raises BADK (R93, R215). -/
def execCmpacc (k : BitVec 1) (s : State) : Host.Outcome State Fault Refusal :=
  if k.toNat < s.params.accLen.chunks then
    .next (s.present (.ok
      { cmd := .cmpacc k, job := .compress (coreLoad s.v (chunk k.toNat s.acc) 0 []) s.acc }))
  else .next (s.present (.error .badK))

end Sys2Proof.Machine
end

