-- ==== Sys2Proof/Machine/Reduction.lean ====
section
/-! DEFINITION. The Reduction Engine: CLRACC and FOLD (spec 42_reduction.md R170 to R174), and the block-level
reduction of a byte sequence (R176). -/

namespace Sys2Proof.Machine

/-- `Fold(ACC, DIN)` on the word view: `ACC[k] ^ DIN[k]` for `k` in `0 .. P_M/4 - 1` (R172, R173). -/
def foldWords (m : AccLen) (acc din : List Word) : List Word :=
  (List.range m.words).map fun k => acc.getD k 0 ^^^ din.getD k 0

/-- `Fold(acc, x)` on byte sequences of length `P_M` (R172). -/
def foldBytes (m : AccLen) (acc x : List Byte) : List Byte :=
  (List.range m.bytes).map fun i => acc.getD i 0 ^^^ x.getD i 0

/-- Fold chunk `c` of a byte sequence: bytes `c·P_M` to `(c+1)·P_M - 1` (R67, R176). -/
def foldChunk (m : AccLen) (blk : List Byte) (c : Nat) : List Byte := (blk.drop (c * m.bytes)).take m.bytes

/-- The number of fold chunks of a byte sequence whose length is a multiple of `P_M` (R176). -/
def foldChunks (m : AccLen) (blk : List Byte) : Nat := blk.length / m.bytes

/-- `Reduce(blk)[i]`: the XOR of byte `i` across every fold chunk (R176). -/
def reduceBlock (m : AccLen) (blk : List Byte) : List Byte :=
  (List.range m.bytes).map fun i =>
    (List.range (foldChunks m blk)).foldl (fun b c => b ^^^ blk.getD (c * m.bytes + i) 0) 0

/-- CLRACC: every `ACC[k] <- 0`, committed at completion; `V` unchanged (R171). -/
def execClracc (s : State) : Host.Outcome State Fault Refusal :=
  .next (s.present (.ok { cmd := .clracc, job := .ready s.v (zeros s.params.accLen) }))

/-- FOLD: `ACC[k] <- ACC[k] ^ DIN[k]` for all `P_M/4` words, committed at completion; `V` unchanged (R173). -/
def execFold (s : State) : Host.Outcome State Fault Refusal :=
  .next (s.present (.ok { cmd := .fold, job := .ready s.v (foldWords s.params.accLen s.acc s.din) }))

end Sys2Proof.Machine
end

