-- ==== Sys2Proof/Machine/Finalizer.lean ====
section
/-! DEFINITION. The Digest Finalizer: FINAL (spec 43_finalizer.md R190 to R193), and the functions of a whole Block:
`Finalize` (R196), the digest readout (R194) and `Digest` (R197). -/

namespace Sys2Proof.Machine

/-- `Finalize(ACC)`: from `IV`, one call of CF per chunk, in order, with no padding (R190, R196). -/
def finalize (p : Params) (acc : List Word) : Chain :=
  (List.range p.accLen.chunks).foldl (fun s q => cf p s (chunk q acc)) p.iv

/-- The digest width `P_W` in bits, chosen per readout (R7, R194). -/
inductive DigestWidth where
  | w128
  | w256
deriving DecidableEq, Repr

/-- Bytes of a digest: `P_W / 8`. -/
def digestBytes : DigestWidth → Nat
  | .w128 => 16
  | .w256 => 32

/-- The digest read out of a chaining state: the first bytes of `bytes_be(V[0]) || ... || bytes_be(V[7])` (R68,
R194). -/
def readout (w : DigestWidth) (v : Chain) : List Byte := (byteView (chainWords v)).take (digestBytes w)

/-- `Digest(blk, w)`, the whole function of a Block of `P_N` bytes (R197); on a sequence of another length the spec gives
it no meaning and no claim is made of it (R178, log 18). -/
def digest (p : Params) (w : DigestWidth) (blk : List Byte) : List Byte :=
  readout w (finalize p (packWords p.accLen (reduceBlock p.accLen blk)))

/-- FINAL: `V <- Finalize(ACC)` from `IV`, whatever `V` held, then `ACC <- 0`, committed at completion as one step
(R192, R193, R195). -/
def execFinal (s : State) : Host.Outcome State Fault Refusal :=
  .next (s.present (.ok
    { cmd := .final,
      job := .compress (coreLoad s.params.iv (chunk 0 s.acc) 0 (laterChunks s.params.accLen s.acc))
        (zeros s.params.accLen) }))

end Sys2Proof.Machine
end

