-- ==== Sys2Proof/Machine/Dispatch.lean ====
section
/-! DEFINITION. One arm per command: what its `CMD` write does at the decoder (spec 40_command.md R110). -/

namespace Sys2Proof.Machine

def exec (i : Instr) (s : State) : Host.Outcome State Fault Refusal :=
  match i with
  | .nop => Sys2Proof.Machine.execNop s
  | .initv => Sys2Proof.Machine.execInitv s
  | .clracc => Sys2Proof.Machine.execClracc s
  | .fold => Sys2Proof.Machine.execFold s
  | .cmpdin => Sys2Proof.Machine.execCmpdin s
  | .cmpacc k => Sys2Proof.Machine.execCmpacc k s
  | .final => Sys2Proof.Machine.execFinal s

end Sys2Proof.Machine
end

