-- ==== Sys2Proof/Machine/Bus.lean ====
section
/-! DEFINITION. The register window (spec 20_memory.md R60 to R65): the map, and what a `BusRead` and a `BusWrite` do,
idle and busy (10_state.md R21 to R34, 40_command.md R110, R115). -/

namespace Sys2Proof.Machine

/-- The registers of the map of R61. -/
inductive Reg where
  | ctrl
  | status
  | cmd
  | cfg
  | v (i : Fin 8)
  | din (k : Nat)
  | acc (k : Nat)
  | reserved (off : Nat)
deriving DecidableEq, Repr

/-- The register at a byte offset (R61); `DINk` and `ACCk` exist for `k` below `P_M/4`, every other offset is reserved. -/
def regAt (m : AccLen) (off : Nat) : Reg :=
  if off = 0x000 then .ctrl
  else if off = 0x004 then .status
  else if off = 0x008 then .cmd
  else if off = 0x00C then .cfg
  else if h : 0x020 ≤ off ∧ off < 0x040 then .v ⟨(off - 0x020) / 4, by omega⟩
  else if 0x100 ≤ off ∧ off < 0x100 + m.bytes then .din ((off - 0x100) / 4)
  else if 0x200 ≤ off ∧ off < 0x200 + m.bytes then .acc ((off - 0x200) / 4)
  else .reserved off

/-- `offset(reg)` (R61, R97). -/
def regOffset : Reg → Nat
  | .ctrl => 0x000
  | .status => 0x004
  | .cmd => 0x008
  | .cfg => 0x00C
  | .v i => 0x020 + 4 * i.val
  | .din k => 0x100 + 4 * k
  | .acc k => 0x200 + 4 * k
  | .reserved off => off

/-- The bytes of the window (R60). -/
def windowBytes : Nat := 4096

/-- `BusRead(0x00C)`: `CFG[15:0] = P_M`, `CFG[31:16] = 0` (R34). -/
def cfgWord (m : AccLen) : Word := BitVec.ofNat 32 m.bytes

/-- Whether a read returns an unspecified value: `Vi` and `ACCk` while busy (R22, R24, R115). -/
def readIsFree (r : Reg) (s : State) : Bool :=
  match r with
  | .v _ => s.status.busy
  | .acc _ => s.status.busy
  | .ctrl => false
  | .status => false
  | .cmd => false
  | .cfg => false
  | .din _ => false
  | .reserved _ => false

/-- The stored value of a register (R22, R24, R26, R29, R32 to R34, R62). -/
def storedValue (r : Reg) (s : State) : Word :=
  match r with
  | .ctrl => ctrlWord s.ie
  | .status => statusWord s.status
  | .cmd => 0
  | .cfg => cfgWord s.params.accLen
  | .v i => chainGet s.v i
  | .din k => s.din.getD k 0
  | .acc k => s.acc.getD k 0
  | .reserved _ => 0

/-- What a `BusRead` returns: the stored value, or the next free value where the spec leaves it open (R22). -/
def readValue (r : Reg) (s : State) : Word :=
  if readIsFree r s then Config.freeRead s.draws else storedValue r s

/-- A `BusRead` changes nothing of the block (R69): the host has the word, and a drawn value is not drawn again (R22,
93_implementation_defined.md U1). -/
def readReg (r : Reg) (s : State) : State :=
  { s with
    reads := readValue r s :: s.reads
    draws := if readIsFree r s then s.draws + 1 else s.draws }

/-- `BusWrite(0x000, v)`: bit 1 is the soft reset and wins over bit 0, which otherwise is `CTRL.IE` (R29, R30). -/
def writeCtrl (v : Word) (s : State) : State :=
  if v.getLsbD 1 then s.resetBlock else { s with ie := v.getLsbD 0 }

/-- `BusWrite(0x008, v)`: the word at the command decoder (R33, R110). While busy, both ways raise BUSYWR and the word
does not matter (R216). -/
def writeCmd (v : Word) (s : State) : Host.Outcome State Fault Refusal :=
  match decode s.params.accLen v with
  | .error c => .next (s.present (.error c))
  | .ok i => exec i s

/-- A write the busy block drops with BUSYWR (R115, R214): `s'` is what it stores when idle. -/
def writeIdle (s s' : State) : State := if s.status.busy then s.raise .busyWr else s'

/-- What a `BusWrite` does, idle and busy (R115); `CFG`, `ACCk` and reserved offsets ignore it (R62). -/
def writeReg (r : Reg) (v : Word) (s : State) : Host.Outcome State Fault Refusal :=
  match r with
  | .ctrl => .next (writeCtrl v s)
  | .status => .next { s with status := statusWrite v s.status }
  | .cmd => writeCmd v s
  | .cfg => .next s
  | .v i => .next (writeIdle s { s with v := chainSet s.v i v })
  | .din k => .next (writeIdle s { s with din := s.din.set k v })
  | .acc _ => .next s
  | .reserved _ => .next s

/-- The offset of an access the spec defines: 32 bits wide, inside the window, a multiple of 4 (R60, R65); `k` goes on
from there, any other access stops by name (log 9). -/
def withOffset (p : Params) (size : AccessSize) (addr : Nat) (k : Nat → Host.Outcome State Fault Refusal) :
    Host.Outcome State Fault Refusal :=
  if addr < p.base ∨ p.base + windowBytes ≤ addr then .fault .outsideWindow
  else if size ≠ .word then .refused .accessWidth
  else if (addr - p.base) % 4 ≠ 0 then .refused .misaligned
  else k (addr - p.base)

/-- `BusRead` at an address of the host bus (R12, R60). -/
def busRead (size : AccessSize) (addr : Nat) (s : State) : Host.Outcome State Fault Refusal :=
  withOffset s.params size addr fun off => .next (readReg (regAt s.params.accLen off) s)

/-- `BusWrite` at an address of the host bus (R12, R60). -/
def busWrite (size : AccessSize) (addr : Nat) (v : Word) (s : State) : Host.Outcome State Fault Refusal :=
  withOffset s.params size addr fun off => writeReg (regAt s.params.accLen off) v s

/-- The address of a register on the host bus (R60, R61). -/
def regAddr (p : Params) (r : Reg) : Nat := p.base + regOffset r

end Sys2Proof.Machine
end

