-- ==== Sys2Proof/Machine/Agents.lean ====
section
/-! DEFINITION. The agents' steps (spec 20_memory.md R64): the host's next operation (R71, R97, R98), the block's
completion and internal round (40_command.md R113, R114), the platform's reset (70_reset_and_hazards.md R240), and whose
turn it is. -/

namespace Sys2Proof.Machine

/-- `L: RD reg`, `BNZ bit0, L`: the read, and the pair again at the head of the stream while bit 0 of the value read is
1 (R98). -/
def busPoll (addr : Nat) (s : State) : Host.Outcome State Fault Refusal :=
  withOffset s.params .word addr fun off =>
    let r := regAt s.params.accLen off
    let s' := readReg r s
    .next (if (readValue r s).getLsbD 0 then { s' with hostOps := .poll addr :: s'.hostOps } else s')

/-- One operation of the host, already taken off its stream. -/
def runHostOp (op : HostOp) (s : State) : Host.Outcome State Fault Refusal :=
  match op with
  | .wr size addr val => busWrite size addr val s
  | .rd size addr => busRead size addr s
  | .poll addr => busPoll addr s

/-- The host's step: its oldest operation (R71); a host with nothing to issue stays idle (log 16). -/
def hostMove (s : State) : Host.Outcome State Fault Refusal :=
  match s.hostOps with
  | [] => .next s
  | op :: rest => runHostOp op { s with hostOps := rest }

/-- One agent's step. -/
def runTurn (t : Turn) (s : State) : Host.Outcome State Fault Refusal :=
  match t with
  | .host => hostMove s
  | .round => .next s.roundTick
  | .complete => .next s.complete
  | .reset => .next s.resetBlock

/-- Whose step is next: the head of `turns`; where the list says nothing more, an executing command completes ("no
execution may stay busy forever", R114) and otherwise the host moves (log 4). -/
def nextTurn (s : State) : Turn :=
  match s.turns with
  | t :: _ => t
  | [] => if s.running.isSome then .complete else .host

/-- The state with that turn taken off the list. -/
def takeTurn (s : State) : State := { s with turns := s.turns.tail }

end Sys2Proof.Machine
end

