-- ==== Sys2Proof/Machine/Step.lean ====
section
/-! DEFINITION. One step of the machine: the agent whose turn it is moves (spec 20_memory.md R64). There is no program
counter and no fetch (10_state.md R36): a command comes to the block as the host's write to `CMD` (R90). -/

namespace Sys2Proof.Machine

def step (s : State) : Host.Outcome State Fault Refusal := runTurn (nextTurn s) (takeTurn s)

/-- `s` with the command word at the head of the host's stream, as its write to `CMD`, and the host's turn next: the
very next step presents it (log 5). -/
def State.withFetchWord (s : State) (nbits w : Nat) : State :=
  { s with
    hostOps := .wr .word (regAddr s.params .cmd) (tableWord nbits w) :: s.hostOps
    turns := .host :: s.turns }

end Sys2Proof.Machine
end

