-- ==== Sys2Proof/Machine/HostAsm.lean ====
section
/-! DEFINITION. The host assembly of spec 30_encoding.md R97 to R99: each line as operations of the host's stream. A
host program is a list of them in `State.hostOps`. -/

namespace Sys2Proof.Machine

/-- `WR <reg>, <imm32>` (R97). -/
def asmWr (p : Params) (r : Reg) (v : Word) : HostOp := .wr .word (regAddr p r) v

/-- `RD <reg>` (R97). -/
def asmRd (p : Params) (r : Reg) : HostOp := .rd .word (regAddr p r)

/-- `CMDW <imm32>` (R97). -/
def asmCmdw (p : Params) (v : Word) : HostOp := asmWr p .cmd v

/-- A command mnemonic: `WR CMD, <command word>` (R92, R97). -/
def asmCmd (p : Params) (i : Instr) : HostOp := asmCmdw p (encode i)

/-- `WAIT`: ends when `BUSY = 0` (R98, R99). -/
def asmWait (p : Params) : HostOp := .poll (regAddr p .status)

/-- `SRST` (R99). -/
def asmSrst (p : Params) : HostOp := asmWr p .ctrl 0x00000002

/-- `CLRDONE` (R99). -/
def asmClrdone (p : Params) : HostOp := asmWr p .status 0x00000002

/-- `CLRERR` (R99). -/
def asmClrerr (p : Params) : HostOp := asmWr p .status 0x00000004

/-- `WR DINk` of the words of a list, in increasing `k`. -/
def asmDinWords (p : Params) (ws : List Word) : List HostOp :=
  (List.range ws.length).map fun k => asmWr p (.din k) (ws.getD k 0)

/-- `LDMSG w0, ..., w15` (R99). -/
def asmLdmsg (p : Params) (ws : List Word) : List HostOp := asmDinWords p (ws.take 16)

/-- `LDCHUNK X`: the `P_M/4` big-endian words of a `P_M`-byte sequence (R67, R99). -/
def asmLdchunk (p : Params) (x : List Byte) : List HostOp := asmDinWords p (packWords p.accLen x)

/-- `RDV` (R99). -/
def asmRdv (p : Params) : List HostOp := (List.finRange 8).map fun i => asmRd p (.v i)

/-- `DIGEST blk`: each fold chunk staged, folded and waited for, then FINAL, WAIT and RDV (R99, R198). -/
def asmDigest (p : Params) (blk : List Byte) : List HostOp :=
  ((List.range (foldChunks p.accLen blk)).flatMap fun c =>
    asmLdchunk p (foldChunk p.accLen blk c) ++ [asmCmd p .fold, asmWait p])
  ++ [asmCmd p .final, asmWait p] ++ asmRdv p

end Sys2Proof.Machine
end

