-- ==== Sys2Proof/Safety.lean ====
section
/-! DEFINITION. The terms the claims use: a command's effect as one function (spec 40_command.md R119), the states before
and after a completion, what a well-formed state is, what the block holds of a latched command, and a safe run. -/

namespace Sys2Proof.Machine

/-- `Effect(op, K, V, DIN, ACC)`, the new `(V, ACC)`, line by line as R119 writes it. The machine does not call it: the
claims hold each command's result against it. -/
def effect (p : Params) (i : Instr) (v : Chain) (din acc : List Word) : Chain × List Word :=
  match i with
  | .nop => (v, acc)
  | .initv => (p.iv, acc)
  | .clracc => (v, zeros p.accLen)
  | .fold => (v, foldWords p.accLen acc din)
  | .cmpdin => (cf p v (chunk 0 din), acc)
  | .cmpacc k => (cf p v (chunk k.toNat acc), acc)
  | .final => (finalize p acc, zeros p.accLen)

/-- `s` with a command executing: `BUSY` 1, `DONE` 0, the internal execution state held (R112). -/
def State.executing (s : State) (r : Running) : State :=
  { s with status := { s.status with busy := true, done := false }, running := some r }

/-- `s` with a command completed: its `V` and `ACC` committed, `BUSY` 0, `DONE` 1 (R114). -/
def State.finished (s : State) (v : Chain) (acc : List Word) : State :=
  { s with v := v, acc := acc, status := { s.status with busy := false, done := true }, running := none }

/-- `s` with the error recorded unless one is already (R212). -/
def State.withError (s : State) (code : BitVec 3) : State :=
  { s with status := if s.status.err then s.status else { s.status with err := true, ecode := code } }

/-- `s` after the host has read the word `x`: nothing of the block is changed (R69). -/
def State.withRead (s : State) (x : Word) : State := { s with reads := x :: s.reads }

/-- The reset state of the block of `s`, its host and the order of steps as they were (R241). -/
def State.afterReset (s : State) : State :=
  { State.resetOf s.params with hostOps := s.hostOps, turns := s.turns, reads := s.reads, draws := s.draws }

/-- Every piece of the block's state at the value R241 gives it on an instance with the parameters `p`; `irq` is then 0
(R39). -/
def State.HoldsResetValues (s : State) (p : Params) : Prop :=
  s.params = p ∧ s.v = p.iv ∧
    s.acc.length = p.accLen.words ∧ (∀ k < p.accLen.words, s.acc.getD k 1 = 0) ∧
    s.din.length = p.accLen.words ∧ (∀ k < p.accLen.words, s.din.getD k 1 = 0) ∧
    s.ie = false ∧ s.status.busy = false ∧ s.status.done = false ∧ s.status.err = false ∧ s.status.ecode = 0 ∧
    s.running = none ∧ s.irq = false

/-- From `s` the command is accepted, changes nothing but `STATUS` then, and its completion commits `v` and `acc` and
changes nothing else (R112, R114). -/
def CompletesWith (i : Instr) (s : State) (v : Chain) (acc : List Word) : Prop :=
  ∃ r : Running, r.cmd = i ∧ exec i s = .next (s.executing r) ∧ (s.executing r).complete = s.finished v acc

/-- A command presented while busy: dropped, BUSYWR raised, nothing else changed (R110, R214). -/
def DroppedWhileBusy (i : Instr) : Prop := ∀ s : State, s.status.busy = true → exec i s = .next (s.withError 3)

/-- A command accepted and completed; where it does not answer a next state, nothing. -/
def runCommand (i : Instr) (s : State) : State :=
  match exec i s with
  | .next t => t.complete
  | .fault _ => s
  | .refused _ => s

/-- A `P_M`-byte chunk staged in `DIN` (R67) and folded (R173). -/
def foldStaged (s : State) (x : List Byte) : State :=
  runCommand .fold { s with din := packWords s.params.accLen x }

/-- The fold chunks of a byte sequence, in order (R176). -/
def blockChunks (m : AccLen) (blk : List Byte) : List (List Byte) :=
  (List.range (foldChunks m blk)).map (foldChunk m blk)

/-- `STATUS` as R31 and R211 describe it: `DONE` is 0 while a command executes, `ECODE` is 0 while `ERR` is 0 and one of
the produced codes 1 to 3 otherwise. -/
def Status.Wf (st : Status) : Prop :=
  (st.busy = true → st.done = false) ∧ (st.err = false → st.ecode = 0) ∧
    (st.err = true → st.ecode = 1 ∨ st.ecode = 2 ∨ st.ecode = 3)

/-- The internal execution state as R37 describes it: 68 expanded words, their 64 combination words, a round index up to
64, a chunk index and messages to come within the accumulator's chunks. -/
def CoreRun.Wf (m : AccLen) (c : CoreRun) : Prop :=
  c.w.length = 68 ∧ c.wc = combineWords c.w ∧ c.j ≤ 64 ∧ c.q + c.todo.length < m.chunks ∧
    ∀ b ∈ c.todo, b.length = 16

/-- A job whose `ACC` has the instance's length. -/
def Job.Wf (m : AccLen) : Job → Prop
  | .ready _ acc => acc.length = m.words
  | .compress run acc => run.Wf m ∧ acc.length = m.words

/-- A well-formed state: `BUSY` says whether a command executes (R31, R37), `ACC` and `DIN` have `P_M/4` words (R24,
R26), and their parts are well formed. -/
def State.Wf (s : State) : Prop :=
  s.status.busy = s.running.isSome ∧ s.acc.length = s.params.accLen.words ∧ s.din.length = s.params.accLen.words ∧
    s.status.Wf ∧ ∀ r, s.running = some r → r.cmd.wf s.params.accLen = true ∧ r.job.Wf s.params.accLen

/-- What an executing command will commit is the effect, by R119, of the accepted command on the `V`, `DIN` and `ACC`
there are now: the operands have not changed since acceptance (R72, R113). -/
def State.Latched (s : State) : Prop :=
  s.status.busy = s.running.isSome ∧
    ∀ r, s.running = some r → jobResult s.params r.job = effect s.params r.cmd s.v s.din s.acc

/-- An access the spec defines: 32 bits wide, inside the window, at an offset that is a multiple of 4 (R60, R65). -/
def DefinedAccess (p : Params) (size : AccessSize) (addr : Nat) : Prop :=
  size = .word ∧ p.base ≤ addr ∧ addr < p.base + 4096 ∧ (addr - p.base) % 4 = 0

/-- A host operation whose access the spec defines. -/
def DefinedOp (p : Params) : HostOp → Prop
  | .wr size addr _ => DefinedAccess p size addr
  | .rd size addr => DefinedAccess p size addr
  | .poll addr => DefinedAccess p .word addr

/-- A safe state: every access the host is still to make is one the spec defines, so no step stops. -/
def State.Safe (s : State) : Prop := ∀ op ∈ s.hostOps, DefinedOp s.params op

end Sys2Proof.Machine
end

