-- ==== Sys2Proof/Certificates/Slice0/Obligations.lean ====
section
/-! DEFINITION. The statements for the provers, in the order of the spec's files: state and reset, the register window,
encoding, the command lifecycle, each command, the Compression Core, the Reduction Engine, the Finalizer, errors and
interrupt, and the invariants every step keeps. -/

open Sys2Proof Sys2Proof.Machine

/-! ## State and reset -/

/-- R241, R23: either reset, idle or busy, puts every piece of the block's state at its reset value and leaves the
parameters; the machine starts from those values. -/
def Obligations.ResetGivesEveryPieceItsValue : Prop :=
  (∀ (s : State) (v : Word), v.getLsbD 1 = true → ∃ t : State,
    busWrite .word (regAddr s.params .ctrl) v s = .next t ∧ runTurn .reset s = .next t ∧
    t.HoldsResetValues s.params) ∧
  (∀ p : Params, (State.resetOf p).HoldsResetValues p) ∧ State.reset.HoldsResetValues State.reset.params

/-- The numbers of the instance `State.reset` describes, which the spec takes from general knowledge (R131, R132) and the
model's log 3 presumes, and the free parameters `P_M` and `P_BASE` as logs 1 and 2 choose them. -/
def Obligations.ResetInstanceHasTheDefaultConstants : Prop :=
  chainWords State.reset.v = [0x7380166F, 0x4914B2B9, 0x172442D7, 0xDA8A0600,
    0xA96F30BC, 0x163138AA, 0xE38DEE4D, 0xB0FB0E4E] ∧
  State.reset.params.iv = State.reset.v ∧
  (∀ j, tConst State.reset.params j = if j < 16 then 0x79CC4519 else 0x7A879D8A) ∧
  State.reset.params.accLen = .m128 ∧ State.reset.params.base = 0

/-- R240, R30, R242, R117: the soft reset and the hardware reset have the identical effect, idle or busy; an executing
command is aborted, so that its completion turn then changes nothing and no `DONE` follows; `CTRL` then reads 0. -/
def Obligations.BothResetsHaveTheSameEffect : Prop :=
  ∀ (s : State) (v : Word), v.getLsbD 1 = true →
    busWrite .word (regAddr s.params .ctrl) v s = .next s.afterReset ∧
    runTurn .reset s = .next s.afterReset ∧
    s.afterReset.HoldsResetValues s.params ∧
    s.afterReset.complete = s.afterReset ∧ s.afterReset.roundTick = s.afterReset ∧
    busRead .word (regAddr s.params .ctrl) s.afterReset = .next (s.afterReset.withRead 0)

/-- R29 (with R28): what a write of `CTRL` stores and what a read returns, idle or busy. -/
def Obligations.CtrlRegisterHoldsOnlyIe : Prop :=
  ∀ (s : State) (v : Word),
    busWrite .word (regAddr s.params .ctrl) v s =
      (if v.getLsbD 1 then .next s.afterReset else .next { s with ie := v.getLsbD 0 }) ∧
    busRead .word (regAddr s.params .ctrl) s = .next (s.withRead (if s.ie then 1 else 0))

/-- R31, R32: `STATUS` is write-1-to-clear at bits 1 and 2, `BUSY` cannot be written, and a read packs the four fields,
every other bit 0, at any time. -/
def Obligations.StatusRegisterIsWriteOneToClear : Prop :=
  ∀ (s : State) (v : Word),
    busWrite .word (regAddr s.params .status) v s = .next
      { s with status :=
        { busy := s.status.busy
          done := if v.getLsbD 1 then false else s.status.done
          err := if v.getLsbD 2 then false else s.status.err
          ecode := if v.getLsbD 2 then 0 else s.status.ecode } } ∧
    ∃ w : Word, busRead .word (regAddr s.params .status) s = .next (s.withRead w) ∧
      w.getLsbD 0 = s.status.busy ∧ w.getLsbD 1 = s.status.done ∧ w.getLsbD 2 = s.status.err ∧
      w.getLsbD 3 = false ∧ w.extractLsb' 4 3 = s.status.ecode ∧ w.extractLsb' 7 25 = 0

/-- R33, R34: `CMD` reads 0, `CFG` reads `P_M` and ignores writes, idle or busy. -/
def Obligations.CmdReadsZeroAndCfgReadsTheLength : Prop :=
  ∀ (s : State) (v : Word),
    busRead .word (regAddr s.params .cmd) s = .next (s.withRead 0) ∧
    busRead .word (regAddr s.params .cfg) s =
      .next (s.withRead (match s.params.accLen with | .m64 => 0x00000040 | .m128 => 0x00000080)) ∧
    busWrite .word (regAddr s.params .cfg) v s = .next s

/-- R22 with the model's free value (log 6): `Vi` is read exactly while idle; while busy the read answers the model's free value, a fresh one per read,
and changes nothing else. A write stores the word while idle. -/
def Obligations.ChainingStateIsHostReadableAndWritable : Prop :=
  ∀ (s : State) (i : Fin 8) (x : Word),
    (s.status.busy = false →
      busRead .word (regAddr s.params (.v i)) s = .next (s.withRead ((chainWords s.v).getD i.val 0)) ∧
      ∃ c : Chain, busWrite .word (regAddr s.params (.v i)) x s = .next { s with v := c } ∧
        ∀ j : Fin 8, (chainWords c).getD j.val 0 = if j = i then x else (chainWords s.v).getD j.val 0) ∧
    (s.status.busy = true →
      busRead .word (regAddr s.params (.v i)) s =
        .next { s.withRead (Config.freeRead s.draws) with draws := s.draws + 1 })

/-- R24 with the model's free value (log 6): `ACCk` is read exactly while idle and freely while busy; a host write of it is ignored, with no error, at any
time. -/
def Obligations.AccumulatorIsHostReadOnly : Prop :=
  ∀ (s : State) (k : Nat) (x : Word), k < s.params.accLen.words →
    (s.status.busy = false →
      busRead .word (regAddr s.params (.acc k)) s = .next (s.withRead (s.acc.getD k 0))) ∧
    (s.status.busy = true →
      busRead .word (regAddr s.params (.acc k)) s =
        .next { s.withRead (Config.freeRead s.draws) with draws := s.draws + 1 }) ∧
    busWrite .word (regAddr s.params (.acc k)) x s = .next s

/-- R26: a read of `DINk` returns the stored word, also while busy; a write stores it while idle and no other word of
the buffer. -/
def Obligations.InputBufferIsReadAtAnyTimeAndWrittenIdle : Prop :=
  ∀ (s : State) (k : Nat) (x : Word), k < s.params.accLen.words → s.din.length = s.params.accLen.words →
    busRead .word (regAddr s.params (.din k)) s = .next (s.withRead (s.din.getD k 0)) ∧
    (s.status.busy = false →
      ∃ d : List Word, busWrite .word (regAddr s.params (.din k)) x s = .next { s with din := d } ∧
        d.length = s.din.length ∧ ∀ j, d.getD j 0 = if j = k then x else s.din.getD j 0)

/-- R25, R27, R66: the packing of bytes into the words of `DIN` and `ACC` is big-endian: byte `4k + b` is bits
`31 - 8b : 24 - 8b` of word `k`, and the byte view of the packed words is the sequence itself; the words of a compression chunk are the big-endian words of its 64 bytes. -/
def Obligations.BytePackingIsBigEndian : Prop :=
  ∀ (m : AccLen) (x : List Byte), x.length = m.bytes →
    (packWords m x).length = m.words ∧
    (∀ k b, k < m.words → b < 4 → ((packWords m x).getD k 0).extractLsb' (24 - 8 * b) 8 = x.getD (4 * k + b) 0) ∧
    byteView (packWords m x) = x ∧
    (∀ q j, q < m.chunks → j < 16 → (chunk q (packWords m x)).getD j 0 =
      be32 (x.getD (64 * q + 4 * j) 0) (x.getD (64 * q + 4 * j + 1) 0) (x.getD (64 * q + 4 * j + 2) 0)
        (x.getD (64 * q + 4 * j + 3) 0))

/-! ## The register window -/

/-- R61: the map of the window, offset by offset; every other multiple of 4 is reserved. -/
def Obligations.WindowMapIsTheSpecs : Prop :=
  ∀ m : AccLen,
    regAt m 0x000 = .ctrl ∧ regAt m 0x004 = .status ∧ regAt m 0x008 = .cmd ∧ regAt m 0x00C = .cfg ∧
    (∀ i : Fin 8, regAt m (0x020 + 4 * i.val) = .v i) ∧
    (∀ k < m.words, regAt m (0x100 + 4 * k) = .din k) ∧
    (∀ k < m.words, regAt m (0x200 + 4 * k) = .acc k) ∧
    (∀ off, off % 4 = 0 → ((0x010 ≤ off ∧ off < 0x020) ∨ (0x040 ≤ off ∧ off < 0x100) ∨
      (0x100 + 4 * m.words ≤ off ∧ off < 0x200) ∨ (0x200 + 4 * m.words ≤ off ∧ off < 0x1000)) →
      regAt m off = .reserved off) ∧
    (∀ off < 0x1000, off % 4 = 0 → regOffset (regAt m off) = off)

/-- R62: a reserved offset reads 0, a write to it or to a read-only register is ignored, and neither has a side effect
or an error, idle or busy. -/
def Obligations.ReservedOffsetsReadZeroAndIgnoreWrites : Prop :=
  ∀ (s : State) (off : Nat) (v : Word), off < 0x1000 → off % 4 = 0 →
    (regAt s.params.accLen off = .reserved off →
      busRead .word (s.params.base + off) s = .next (s.withRead 0)) ∧
    (regAt s.params.accLen off = .reserved off ∨ regAt s.params.accLen off = .cfg ∨
      (∃ k, regAt s.params.accLen off = .acc k) →
      busWrite .word (s.params.base + off) v s = .next s)

/-- R65: inside the window an access of another width, or at an offset that is no multiple of 4, is refused. -/
def Obligations.OnlyAlignedWordAccessesAreDefined : Prop :=
  ∀ (s : State) (addr : Nat) (v : Word), s.params.base ≤ addr → addr < s.params.base + 4096 →
    (∀ size, size ≠ .word →
      busRead size addr s = .refused .accessWidth ∧ busWrite size addr v s = .refused .accessWidth) ∧
    ((addr - s.params.base) % 4 ≠ 0 →
      busRead .word addr s = .refused .misaligned ∧ busWrite .word addr v s = .refused .misaligned) ∧
    ((addr - s.params.base) % 4 = 0 →
      ∃ t u : State, busRead .word addr s = .next t ∧ busWrite .word addr v s = .next u)

/-- The model's choice (log 9): an access at an address outside the 4096 bytes of the window (R60) is not this block's, and
the machine stops with a fault of its own name. -/
def Obligations.AccessOutsideTheWindowFaults : Prop :=
  ∀ (s : State) (size : AccessSize) (addr : Nat) (v : Word),
    addr < s.params.base ∨ s.params.base + 4096 ≤ addr →
      busRead size addr s = .fault .outsideWindow ∧ busWrite size addr v s = .fault .outsideWindow

/-- R69: a read has no side effect at any offset: it answers a next state that differs at most in what the host has read
and in the count of free values drawn (the model's own fields, logs 6 and 7). -/
def Obligations.ReadsHaveNoSideEffect : Prop :=
  ∀ (s : State) (addr : Nat), DefinedAccess s.params .word addr →
    ∃ (x : Word) (d : Nat), busRead .word addr s = .next { s with reads := x :: s.reads, draws := d } ∧
      (s.status.busy = false → d = s.draws)

/-- R214: while busy a write to `CMD`, `Vi` or an existing `DINk` is dropped and raises BUSYWR, the running command going
on; a write to `CTRL`, `STATUS`, a read-only or a reserved offset never raises an error. -/
def Obligations.BusyWritesAreDroppedWithBusywr : Prop :=
  ∀ (s : State) (off : Nat) (v : Word), s.status.busy = true → off < 0x1000 → off % 4 = 0 →
    ((off = 0x008 ∨ (0x020 ≤ off ∧ off < 0x040) ∨ (0x100 ≤ off ∧ off < 0x100 + s.params.accLen.bytes)) →
      busWrite .word (s.params.base + off) v s = .next (s.withError 3)) ∧
    (¬ (off = 0x008 ∨ (0x020 ≤ off ∧ off < 0x040) ∨ (0x100 ≤ off ∧ off < 0x100 + s.params.accLen.bytes)) →
      ∃ t, busWrite .word (s.params.base + off) v s = .next t ∧
        (t.status.err = true → s.status.err = true) ∧ (t.status.ecode = s.status.ecode ∨ t.status.ecode = 0))

/-- R67, R99: the writes of LDCHUNK, issued to an idle block, leave in `DIN` the big-endian words of the `P_M`-byte
sequence, and change nothing else; the host's stream goes on after them. -/
def Obligations.StagingAChunkFillsTheInputBuffer : Prop :=
  ∀ (s : State) (x : List Byte) (rest : List HostOp), s.status.busy = false → s.running = none → s.turns = [] →
    s.din.length = s.params.accLen.words → s.hostOps = asmLdchunk s.params x ++ rest →
    Host.Core.run Sys2Proof.core s.params.accLen.words s =
      .next { s with din := packWords s.params.accLen x, hostOps := rest }

/-- R98, R99 with the model's one-step poll (log 8): WAIT reads `STATUS`, stays at the head of the host's stream while
`BUSY` is 1 and leaves it once `BUSY` is 0. -/
def Obligations.WaitEndsWhenNotBusy : Prop :=
  ∀ (s : State) (rest : List HostOp), nextTurn s = .host → s.hostOps = asmWait s.params :: rest →
    ∃ w : Word, w.getLsbD 0 = s.status.busy ∧
      step s = .next { s with
        hostOps := if s.status.busy then asmWait s.params :: rest else rest
        turns := s.turns.tail
        reads := w :: s.reads }

/-! ## Encoding -/

/-- R92, both ways: the words that decode to a command are exactly the encodings of the commands the instance accepts,
so a command and its word determine each other and no bit of an encoding is dropped. -/
def Obligations.LegalWordsAreExactlyTheEncodings : Prop :=
  ∀ (m : AccLen) (v : Word) (i : Instr), decode m v = .ok i ↔ i.wf m = true ∧ v = encode i

/-- R94: the tests of the decoder in their order, on the fields of R91; a legal word is the command with its `OP` and
`K`; the legal words are eight on an instance with `P_M = 128` and seven on one with `P_M = 64`. -/
def Obligations.DecoderAppliesTheTestsInOrder : Prop :=
  (∀ (m : AccLen) (v : Word),
    if v.extractLsb' 5 27 ≠ 0 then decode m v = .error .illop
    else if 7 ≤ (v.extractLsb' 0 4).toNat then decode m v = .error .illop
    else if v.getLsbD 4 = true ∧ v.extractLsb' 0 4 ≠ 5 then decode m v = .error .illop
    else if v.extractLsb' 0 4 = 5 ∧ v.getLsbD 4 = true ∧ m = .m64 then decode m v = .error .badK
    else ∃ i : Instr, decode m v = .ok i ∧ i.op = v.extractLsb' 0 4 ∧ i.kBit = v.extractLsb' 4 1) ∧
  (∀ v : Word, (∃ i, decode .m128 v = .ok i) ↔ v.toNat ≤ 6 ∨ v = 0x00000015) ∧
  (∀ v : Word, (∃ i, decode .m64 v = .ok i) ↔ v.toNat ≤ 6)

/-- R213, R96: a word with a reserved bit set, a reserved operation or `K = 1` outside CMPACC raises ILLOP when
written to `CMD` while idle, completes at once and is not executed. -/
def Obligations.ReservedWordsRaiseIllop : Prop :=
  ∀ (s : State) (v : Word), s.status.busy = false →
    (v.extractLsb' 5 27 ≠ 0 ∨ 7 ≤ (v.extractLsb' 0 4).toNat ∨ (v.getLsbD 4 = true ∧ v.extractLsb' 0 4 ≠ 5)) →
    busWrite .word (regAddr s.params .cmd) v s =
      .next { s.withError 1 with status := { (s.withError 1).status with done := true } }

/-- R215: the word 0x00000015 written to `CMD` while idle raises BADK on an instance with `P_M = 64`, where it is not
executed, and is accepted as CMPACC 1 on one with `P_M = 128`. -/
def Obligations.AbsentChunkRaisesBadK : Prop :=
  ∀ s : State, s.status.busy = false →
    (s.params.accLen = .m64 → busWrite .word (regAddr s.params .cmd) 0x00000015 s =
      .next { s.withError 2 with status := { (s.withError 2).status with done := true } }) ∧
    (s.params.accLen = .m128 → ∃ r : Running, r.cmd = .cmpacc 1 ∧
      busWrite .word (regAddr s.params .cmd) 0x00000015 s = .next (s.executing r))

/-- R92: the command words, written out from the operation map, decode to their commands; sample reserved words do not. -/
def Obligations.CommandWordsDecodeAsTheMapSays : Prop :=
  ∀ m : AccLen,
    decode m 0x00000000 = .ok .nop ∧ decode m 0x00000001 = .ok .initv ∧ decode m 0x00000002 = .ok .clracc ∧
    decode m 0x00000003 = .ok .fold ∧ decode m 0x00000004 = .ok .cmpdin ∧ decode m 0x00000005 = .ok (.cmpacc 0) ∧
    decode m 0x00000006 = .ok .final ∧ decode .m128 0x00000015 = .ok (.cmpacc 1) ∧
    decode m 0x00000007 = .error .illop ∧ decode m 0x00000010 = .error .illop ∧
    decode m 0x00000020 = .error .illop ∧ decode m 0xFFFFFFFF = .error .illop

/-! ## The command lifecycle -/

/-- R110, R111, R112, R33, R119: what a write of any word to `CMD` does: dropped with BUSYWR while busy; an illegal word
raises its error and completes at once; a legal word is accepted, the command latched with the result R119 gives it. -/
def Obligations.CmdWritePresentsTheWord : Prop :=
  ∀ (s : State) (w : Word),
    (s.status.busy = true → busWrite .word (regAddr s.params .cmd) w s = .next (s.withError 3)) ∧
    (s.status.busy = false → ∀ c, decode s.params.accLen w = .error c →
      ∃ t, busWrite .word (regAddr s.params .cmd) w s = .next t ∧
        t = { s.withError (match c with | .illop => 1 | .badK => 2 | .busyWr => 3) with
          status := { (s.withError (match c with | .illop => 1 | .badK => 2 | .busyWr => 3)).status with done := true } }) ∧
    (s.status.busy = false → ∀ i, decode s.params.accLen w = .ok i →
      ∃ r : Running, busWrite .word (regAddr s.params .cmd) w s = .next (s.executing r) ∧ r.cmd = i ∧
        jobResult s.params r.job = effect s.params i s.v s.din s.acc)

/-- The machine's step on a command: where the host's turn is next and its oldest operation writes to `CMD` a word that
decodes to `i`, the step is `exec i` of the state with that turn and that operation taken off; and `withFetchWord` sets
up exactly that (log 5). -/
def Obligations.StepRunsTheDecodedCommand : Prop :=
  (∀ (s : State) (w : Word) (rest : List HostOp) (i : Instr),
    nextTurn s = .host → s.hostOps = .wr .word (regAddr s.params .cmd) w :: rest →
    decode s.params.accLen w = .ok i →
    step s = exec i { s with hostOps := rest, turns := s.turns.tail }) ∧
  (∀ (s : State) (nbits w : Nat) (i : Instr), decode s.params.accLen (tableWord nbits w) = .ok i →
    step (s.withFetchWord nbits w) = exec i s)

/-- R112, R72: accepting a command changes only `STATUS` and the internal execution state: `V`, `ACC`, `DIN`, `CTRL`,
the parameters, the host's stream and the order of steps stay, and `ERR` and `ECODE` stay unless the command is turned
away. -/
def Obligations.PresentingACommandChangesOnlyStatus : Prop :=
  ∀ (i : Instr) (s t : State), exec i s = .next t →
    t.params = s.params ∧ t.v = s.v ∧ t.acc = s.acc ∧ t.din = s.din ∧ t.ie = s.ie ∧ t.hostOps = s.hostOps ∧
    t.turns = s.turns ∧ t.reads = s.reads ∧ t.draws = s.draws ∧
    (s.status.busy = true → t.running = s.running ∧ t.status.busy = true ∧ t.status.done = s.status.done) ∧
    (s.status.busy = false → i.wf s.params.accLen = true →
      t.status = { s.status with busy := true, done := false })

/-- R35: no command reads `STATUS` or `CTRL`: what a command commits is the same from two idle states that differ only in
them. -/
def Obligations.ResultsDoNotDependOnStatusOrCtrl : Prop :=
  ∀ (i : Instr) (s : State) (st : Status) (e : Bool), s.status.busy = false → st.busy = false →
    (runCommand i { s with status := st, ie := e }).v = (runCommand i s).v ∧
    (runCommand i { s with status := st, ie := e }).acc = (runCommand i s).acc

/-! ## The commands -/

/-- R118: NOP, its word, its acceptance and completion with no effect, its drop while busy; the word with `K = 1` is
ILLOP. -/
def Obligations.NopCompletesWithNoEffect : Prop :=
  encode .nop = 0x00000000 ∧ (∀ m, decode m 0x00000010 = .error .illop) ∧
  (∀ s : State, s.status.busy = false → CompletesWith .nop s s.v s.acc) ∧ DroppedWhileBusy .nop

/-- R143: INITV loads the initial value into `V` and touches nothing else. -/
def Obligations.InitvLoadsTheInitialValue : Prop :=
  encode .initv = 0x00000001 ∧
  (∀ s : State, s.status.busy = false → CompletesWith .initv s s.params.iv s.acc) ∧ DroppedWhileBusy .initv

/-- R171: CLRACC clears every word of `ACC` and touches nothing else. -/
def Obligations.ClraccClearsTheAccumulator : Prop :=
  encode .clracc = 0x00000002 ∧
  (∀ s : State, s.status.busy = false → ∃ a : List Word, CompletesWith .clracc s s.v a ∧
    a.length = s.params.accLen.words ∧ ∀ k < s.params.accLen.words, a.getD k 1 = 0) ∧
  DroppedWhileBusy .clracc

/-- R173, R174: FOLD XORs `DIN` into `ACC`, word by word over all `P_M/4` words and so bit by bit with no carry, and
touches nothing else. -/
def Obligations.FoldXorsTheStagedChunk : Prop :=
  encode .fold = 0x00000003 ∧
  (∀ s : State, s.status.busy = false → ∃ a : List Word, CompletesWith .fold s s.v a ∧
    a.length = s.params.accLen.words ∧
    ∀ k < s.params.accLen.words, a.getD k 0 = s.acc.getD k 0 ^^^ s.din.getD k 0 ∧
      ∀ b, (a.getD k 0).getLsbD b = ((s.acc.getD k 0).getLsbD b ^^ (s.din.getD k 0).getLsbD b)) ∧
  DroppedWhileBusy .fold

/-- R144: CMPDIN chains `V` through CF with the message `DIN[0..15]` and touches nothing else. -/
def Obligations.CmpdinCompressesTheInputBuffer : Prop :=
  encode .cmpdin = 0x00000004 ∧
  (∀ s : State, s.status.busy = false →
    CompletesWith .cmpdin s (cf s.params s.v ((List.range 16).map fun j => s.din.getD j 0)) s.acc) ∧
  DroppedWhileBusy .cmpdin

/-- R145, R93: CMPACC K chains `V` through CF with the message `ACC[16K .. 16K+15]`, keeps `ACC`, and touches nothing
else; a `K` the instance's accumulator does not have raises BADK and completes at once, with no effect on `V` or `ACC`. -/
def Obligations.CmpaccCompressesAChunkOfTheAccumulator : Prop :=
  encode (.cmpacc 0) = 0x00000005 ∧ encode (.cmpacc 1) = 0x00000015 ∧
  (∀ (k : BitVec 1) (s : State), s.status.busy = false → k.toNat < s.params.accLen.chunks →
    CompletesWith (.cmpacc k) s
      (cf s.params s.v ((List.range 16).map fun j => s.acc.getD (16 * k.toNat + j) 0)) s.acc) ∧
  (∀ s : State, s.status.busy = false → s.params.accLen = .m64 →
    exec (.cmpacc 1) s = .next
      { s.withError 2 with status := { (s.withError 2).status with done := true } }) ∧
  ∀ k, DroppedWhileBusy (.cmpacc k)

/-- R192, R193, R196: FINAL commits `Finalize(ACC)`, from `IV` whatever `V` held, one CF call per chunk in order, and
clears every word of `ACC` in the same step; nothing else is touched. -/
def Obligations.FinalFinalizesTheAccumulator : Prop :=
  encode .final = 0x00000006 ∧
  (∀ s : State, s.status.busy = false → ∃ a : List Word,
    CompletesWith .final s
      (match s.params.accLen with
        | .m64 => cf s.params s.params.iv (chunk 0 s.acc)
        | .m128 => cf s.params (cf s.params s.params.iv (chunk 0 s.acc)) (chunk 1 s.acc)) a ∧
    a.length = s.params.accLen.words ∧ ∀ k < s.params.accLen.words, a.getD k 1 = 0) ∧
  DroppedWhileBusy .final

/-! ## The Compression Core -/

/-- R133, R134: FF and GG bit by bit: XOR of three before round 16, then majority and choice. -/
def Obligations.BooleanFunctionsSwitchAtRoundSixteen : Prop :=
  ∀ (j : Nat) (x y z : Word) (b : Nat), b < 32 →
    (j ≤ 15 → (ff j x y z).getLsbD b = (x.getLsbD b ^^ y.getLsbD b ^^ z.getLsbD b) ∧
      (gg j x y z).getLsbD b = (x.getLsbD b ^^ y.getLsbD b ^^ z.getLsbD b)) ∧
    (16 ≤ j →
      (ff j x y z).getLsbD b =
        decide (2 ≤ (x.getLsbD b).toNat + (y.getLsbD b).toNat + (z.getLsbD b).toNat) ∧
      (gg j x y z).getLsbD b = if x.getLsbD b then y.getLsbD b else z.getLsbD b)

/-- R135, R136: P0 and P1 are linear over GF(2) and bijections of the 32-bit words. -/
def Obligations.PermutationFunctionsAreLinearBijections : Prop :=
  (∀ x : Word, p0 x = x ^^^ rotl x 9 ^^^ rotl x 17 ∧ p1 x = x ^^^ rotl x 15 ^^^ rotl x 23) ∧
  (∀ x y : Word, p0 (x ^^^ y) = p0 x ^^^ p0 y ∧ p1 (x ^^^ y) = p1 x ^^^ p1 y) ∧
  Function.Bijective p0 ∧ Function.Bijective p1

/-- R137: the 68 expanded words are the message and then the recurrence, the 64 combination words are `W[j] ^ W[j+4]`,
and the expansion is linear over GF(2). -/
def Obligations.ExpansionFollowsTheRecurrence : Prop :=
  (∀ b : List Word, b.length = 16 →
    (expandWords b).length = 68 ∧
    (∀ j < 16, (expandWords b).getD j 0 = b.getD j 0) ∧
    (∀ j, 16 ≤ j → j < 68 → (expandWords b).getD j 0 =
      p1 ((expandWords b).getD (j - 16) 0 ^^^ (expandWords b).getD (j - 9) 0 ^^^
        rotl ((expandWords b).getD (j - 3) 0) 15)
      ^^^ rotl ((expandWords b).getD (j - 13) 0) 7 ^^^ (expandWords b).getD (j - 6) 0) ∧
    (combineWords (expandWords b)).length = 64 ∧
    (∀ j < 64, (combineWords (expandWords b)).getD j 0 =
      (expandWords b).getD j 0 ^^^ (expandWords b).getD (j + 4) 0)) ∧
  (∀ b c : List Word, b.length = 16 → c.length = 16 →
    expandWords (List.zipWith (· ^^^ ·) b c) = List.zipWith (· ^^^ ·) (expandWords b) (expandWords c) ∧
    combineWords (expandWords (List.zipWith (· ^^^ ·) b c)) =
      List.zipWith (· ^^^ ·) (combineWords (expandWords b)) (combineWords (expandWords c)))

/-- R138, R141: one round, register by register, the right-hand sides all of the registers at its start; the constant is
rotated by `j mod 32`, so rounds 0 and 32 use it unrotated. -/
def Obligations.RoundUpdatesTheWorkingRegisters : Prop :=
  ∀ (p : Params) (j : Nat) (w wc : Word) (r : Regs),
    let t := if j < 16 then p.tLo else p.tHi
    let ss1 := rotl (rotl r.a 12 + r.e + rotl t (j % 32)) 7
    let n := roundStep p j w wc r
    n.a = ff j r.a r.b r.c + r.d + (ss1 ^^^ rotl r.a 12) + wc ∧ n.b = r.a ∧ n.c = rotl r.b 9 ∧ n.d = r.c ∧
    n.e = p0 (gg j r.e r.f r.g + r.h + ss1 + w) ∧ n.f = r.e ∧ n.g = rotl r.f 19 ∧ n.h = r.g ∧
    rotl t 0 = t ∧ rotl t 32 = t

/-- R140, R139: CF is 64 rounds from the registers `A..H = S[0..7]` over the expansion of the message, and the XOR of
the final registers with `S`. -/
def Obligations.CfIsSixtyFourRoundsAndFeedForward : Prop :=
  ∀ (p : Params) (s : Chain) (b : List Word), ∃ regs : Nat → Regs,
    regs 0 = { a := s.v0, b := s.v1, c := s.v2, d := s.v3, e := s.v4, f := s.v5, g := s.v6, h := s.v7 } ∧
    (∀ j < 64, regs (j + 1) =
      roundStep p j ((expandWords b).getD j 0) ((combineWords (expandWords b)).getD j 0) (regs j)) ∧
    chainWords (cf p s b) =
      [(regs 64).a ^^^ s.v0, (regs 64).b ^^^ s.v1, (regs 64).c ^^^ s.v2, (regs 64).d ^^^ s.v3,
       (regs 64).e ^^^ s.v4, (regs 64).f ^^^ s.v5, (regs 64).g ^^^ s.v6, (regs 64).h ^^^ s.v7]

/-- R37, R142: after 64 internal rounds the working registers of a started call are those of CF's end: their feed-forward
is CF's value, with no round left to do. -/
def Obligations.SixtyFourInternalRoundsComputeCf : Prop :=
  ∀ (p : Params) (s : Chain) (b : List Word) (q : Nat) (todo : List (List Word)),
    let c := (coreTick p)^[64] (coreLoad s b q todo)
    c.j = 64 ∧ c.s = s ∧ c.q = q ∧ c.todo = todo ∧ chainXor (chainOfRegs c.regs) s = cf p s b

/-- R142, R113, R250, for the model's turns: any number of round turns and then a completion leave the state the completion
alone leaves. That a round is a turn of its own, that completion may come after any number of them and commits the
finished call, is the model's choice (log 10); in a state with nothing executing both kinds of turn change nothing but the
list of turns (log 16). -/
def Obligations.InternalRoundsAreUnobservable : Prop :=
  ∀ (s : State) (n : Nat) (ts : List Turn),
    Host.Core.run Sys2Proof.core (n + 1) { s with turns := List.replicate n .round ++ .complete :: ts } =
      .next { s.complete with turns := ts }

/-! ## The Reduction Engine -/

/-- R172: the fold of byte sequences, byte by byte, is on the word view the XOR of the words. -/
def Obligations.ByteFoldIsWordFold : Prop :=
  ∀ (m : AccLen) (a x : List Byte), a.length = m.bytes → x.length = m.bytes →
    (foldBytes m a x).length = m.bytes ∧
    (∀ i < m.bytes, (foldBytes m a x).getD i 0 = a.getD i 0 ^^^ x.getD i 0) ∧
    packWords m (foldBytes m a x) = foldWords m (packWords m a) (packWords m x)

/-- R175: the algebraic laws of the fold: associative, commutative in the chunks, zero its identity, every chunk its own
inverse. -/
def Obligations.FoldIsAssociativeCommutativeSelfInverse : Prop :=
  ∀ (m : AccLen) (a x y : List Word), a.length = m.words →
    foldWords m (foldWords m a x) y = foldWords m a (foldWords m x y) ∧
    foldWords m (foldWords m a x) y = foldWords m (foldWords m a y) x ∧
    foldWords m a (zeros m) = a ∧ foldWords m (zeros m) a = a ∧
    foldWords m (foldWords m a x) x = a

/-- R176: staging and folding every chunk of a byte sequence, from a zero accumulator, leaves its reduction in `ACC`, and
`V` and the stream of the host as they were. -/
def Obligations.FoldingEveryChunkReducesTheBlock : Prop :=
  ∀ (s : State) (blk : List Byte) (n : Nat), s.status.busy = false → s.acc = zeros s.params.accLen →
    blk.length = n * s.params.accLen.bytes →
    let t := (blockChunks s.params.accLen blk).foldl foldStaged s
    t.acc = packWords s.params.accLen (reduceBlock s.params.accLen blk) ∧
    (∀ i < s.params.accLen.bytes, (reduceBlock s.params.accLen blk).getD i 0 =
      ((List.range n).map fun c => blk.getD (c * s.params.accLen.bytes + i) 0).foldr (· ^^^ ·) 0) ∧
    t.v = s.v ∧ t.status.busy = false ∧ t.ie = s.ie ∧ t.hostOps = s.hostOps

/-- R177: any order of the fold chunks leaves the same accumulator. -/
def Obligations.FoldOrderDoesNotMatter : Prop :=
  ∀ (s : State) (xs ys : List (List Byte)), s.status.busy = false → xs.Perm ys →
    (xs.foldl foldStaged s).acc = (ys.foldl foldStaged s).acc

/-- R179: a block of an even number of equal fold chunks reduces to zero, so its digest is that of the zero block. -/
def Obligations.EvenlyManyEqualChunksReduceToZero : Prop :=
  ∀ (m : AccLen) (x : List Byte) (n : Nat), x.length = m.bytes →
    reduceBlock m (List.replicate (2 * n) x).flatten = List.replicate m.bytes 0

/-! ## The Finalizer -/

/-- R68, R194: the digest readout is big-endian, 32 bytes or the first 16 of the same bytes. -/
def Obligations.ShortDigestIsTheFirstHalf : Prop :=
  ∀ v : Chain,
    (readout .w256 v).length = 32 ∧ (readout .w128 v).length = 16 ∧
    readout .w128 v = (readout .w256 v).take 16 ∧
    (∀ i b, i < 8 → b < 4 →
      (readout .w256 v).getD (4 * i + b) 0 = ((chainWords v).getD i 0).extractLsb' (24 - 8 * b) 8)

/-- R195: FINAL's result depends only on the accumulator and the instance: two idle states that agree on those commit the
same digest, whatever else they hold. -/
def Obligations.FinalDependsOnlyOnTheAccumulator : Prop :=
  ∀ s t : State, s.status.busy = false → t.status.busy = false → s.params = t.params → s.acc = t.acc →
    (runCommand .final s).v = (runCommand .final t).v ∧ (runCommand .final s).acc = (runCommand .final t).acc

/-- R199: INITV and then CMPACC over the chunks in order leave in `V` what FINAL leaves, and keep `ACC`, which FINAL
clears. -/
def Obligations.ManualFinalizationEqualsFinal : Prop :=
  ∀ s : State, s.status.busy = false →
    let t := match s.params.accLen with
      | .m64 => runCommand (.cmpacc 0) (runCommand .initv s)
      | .m128 => runCommand (.cmpacc 1) (runCommand (.cmpacc 0) (runCommand .initv s))
    t.v = (runCommand .final s).v ∧ t.acc = s.acc ∧ (runCommand .final s).acc = zeros s.params.accLen

/-- R197, R198: from an idle block with `ACC = 0`, setting `DIN` to each fold chunk of a Block and running FOLD to its
completion, then FINAL, leaves `Finalize(Reduce(blk))` in `V`, so the readout of either width is `Digest(blk, w)`, and
`ACC = 0` again. It composes commands by `runCommand`; it is no run of the host's stream `asmDigest` (the staging writes
are the statement StagingAChunkFillsTheInputBuffer). -/
def Obligations.FoldingABlockAndFinalGiveItsDigest : Prop :=
  ∀ (s : State) (blk : List Byte) (w : DigestWidth), s.status.busy = false →
    s.acc = zeros s.params.accLen → blk.length = blockBytes →
    let t := runCommand .final ((blockChunks s.params.accLen blk).foldl foldStaged s)
    readout w t.v = digest s.params w blk ∧ t.acc = zeros s.params.accLen ∧ t.status.busy = false

/-! ## Errors and the interrupt -/

/-- R212: an error is recorded only while none is, changes no other state, and stays with its code until a write of 1 to
bit 2 of `STATUS` or a reset. -/
def Obligations.FirstErrorIsKeptUntilCleared : Prop :=
  (∀ (s : State) (c : ErrCode),
    s.raise c = s.withError (match c with | .illop => 1 | .badK => 2 | .busyWr => 3)) ∧
  (∀ s t : State, step s = .next t → s.status.err = true →
    (t.status.err = true ∧ t.status.ecode = s.status.ecode) ∨
    (∃ (v : Word) (rest : List HostOp), v.getLsbD 2 = true ∧ nextTurn s = .host ∧
      s.hostOps = .wr .word (regAddr s.params .status) v :: rest ∧
      t.status.err = false ∧ t.status.ecode = 0) ∨
    t = { s with hostOps := t.hostOps, turns := s.turns.tail }.afterReset)

/-- R218, R252: `irq` is `CTRL.IE & STATUS.DONE`; with `IE` set it rises at a completion and at an illegal command,
and falls when `DONE` is cleared by a write, by the next acceptance or by a reset, or `IE` by a write; setting `IE` while
`DONE = 1` raises it at once. -/
def Obligations.InterruptIsIeAndDone : Prop :=
  ∀ (s : State) (v : Word) (r : Running),
    s.irq = (s.ie && s.status.done) ∧
    (s.running = some r → s.complete.irq = s.ie) ∧
    (∀ c, (s.acceptIllegal c).irq = s.ie) ∧
    (∀ c, (s.raise c).irq = s.irq) ∧
    (s.acceptLegal r).irq = false ∧ s.resetBlock.irq = false ∧
    (v.getLsbD 1 = true → ∃ t, busWrite .word (regAddr s.params .status) v s = .next t ∧ t.irq = false) ∧
    (v.getLsbD 1 = false →
      ∃ t, busWrite .word (regAddr s.params .ctrl) v s = .next t ∧ t.irq = (v.getLsbD 0 && s.status.done))

/-- R210: nothing the block does stops the machine: from a state whose host is to make only accesses the spec defines,
the step answers a next state, and the host is again to make only such accesses. -/
def Obligations.DefinedAccessesNeverStop : Prop :=
  ∀ s : State, s.Safe → ∃ t : State, step s = .next t ∧ t.Safe

/-! ## Whole-machine rules -/

/-- The reset state of every instance is well formed, holds nothing latched and is safe. -/
def Obligations.ResetMeetsTheInvariants : Prop :=
  ∀ p : Params, (State.resetOf p).Wf ∧ (State.resetOf p).Latched ∧ (State.resetOf p).Safe

/-- Every step keeps a state well formed: `BUSY` is 1 exactly while a command executes, `DONE` is 0 then, `ECODE` is 0
exactly while `ERR` is 0 and otherwise one of the produced codes, `ACC` and `DIN` keep their `P_M/4` words, and the
internal execution state keeps its shape (R24, R26, R31, R37, R211). -/
def Obligations.EveryStepKeepsTheStateWellFormed : Prop :=
  ∀ s t : State, s.Wf → step s = .next t → t.Wf

/-- R72, R113: whatever the host and the block do between acceptance and completion, the executing command will commit
its effect on the `V`, `DIN` and `ACC` there are, so its operands have not changed since acceptance. -/
def Obligations.EveryStepKeepsTheLatchedResult : Prop :=
  ∀ s t : State, s.Latched → step s = .next t → t.Latched

/-- R34, R7: no step changes the instance's parameters, `CFG` among them. -/
def Obligations.NoStepChangesTheParameters : Prop :=
  ∀ s t : State, step s = .next t → t.params = s.params

/-- R116, R117: a command in execution leaves it only by its completion or by a reset; no step replaces it by another
command, and only the completion and the reset change `V` and `ACC` meanwhile; `DIN` changes only by a reset. -/
def Obligations.ExecutingCommandIsNotReplaced : Prop :=
  ∀ (s t : State) (r : Running), s.status.busy = true → s.running = some r → step s = .next t →
    (∃ r' : Running, t.running = some r' ∧ r'.cmd = r.cmd ∧ t.status.busy = true ∧
      t.v = s.v ∧ t.acc = s.acc ∧ t.din = s.din ∧
      jobResult t.params r'.job = jobResult s.params r.job) ∨
    (t = { s with turns := s.turns.tail }.finished (jobResult s.params r.job).1 (jobResult s.params r.job).2) ∨
    (t = { s with hostOps := t.hostOps, turns := s.turns.tail }.afterReset)

/-- R114, with the model's order of turns (log 4): the completion step commits the result and sets `STATUS`, whenever a
command is executing. The model's choices, not the spec's: an empty order of turns makes the completion next while a
command executes, and so, within as many steps as the order of turns lists, and one more, an executing command has
completed or been reset, unless the host stops the machine by an access the spec does not define. -/
def Obligations.CompletionCommitsAndExecutionsEnd : Prop :=
  (∀ (s : State) (r : Running), s.running = some r → nextTurn s = .complete →
    step s = .next ({ s with turns := s.turns.tail }.finished
      (jobResult s.params r.job).1 (jobResult s.params r.job).2)) ∧
  (∀ s : State, s.turns = [] → s.running.isSome → nextTurn s = .complete) ∧
  (∀ s t : State, Host.Core.run Sys2Proof.core (s.turns.length + 1) s = .next t →
    ∃ (k : Nat) (u : State), k ≤ s.turns.length + 1 ∧ Host.Core.run Sys2Proof.core k s = .next u ∧ u.running = none)
end

