-- ==== Sys2Proof/Laws/Decode.lean ====
section
/-! SUPPORT. The decoder and the encoder field by field (spec 30_encoding.md R91). -/

namespace Sys2Proof

theorem bit_cases (k : BitVec 1) : k = 0 ∨ k = 1 := by revert k; decide

@[simp] theorem opField_encode (i : Instr) : opField (encode i) = i.op := by
  cases i with
  | cmpacc k => rcases bit_cases k with rfl | rfl <;> decide
  | _ => decide

@[simp] theorem kField_encode (i : Instr) : kField (encode i) = i.kBit := by
  cases i with
  | cmpacc k => rcases bit_cases k with rfl | rfl <;> decide
  | _ => decide

@[simp] theorem rsvdField_encode (i : Instr) : rsvdField (encode i) = 0 := by
  cases i with
  | cmpacc k => rcases bit_cases k with rfl | rfl <;> decide
  | _ => decide

/-- A command word is its three fields. -/
theorem word_eq_fields (v : Word) : v = rsvdField v ++ kField v ++ opField v := by
  unfold rsvdField kField opField
  apply BitVec.eq_of_getLsbD_eq
  intro i hi
  simp only [BitVec.getLsbD_append, BitVec.getLsbD_extractLsb']
  by_cases h : i < 4
  · simp only [h, decide_true, Bool.true_and, Nat.zero_add, if_true]
  · by_cases h5 : i - 4 < 1
    · have : i = 4 := by omega
      subst this; simp
    · have h6 : i - 4 - 1 < 27 := by omega
      simp only [h, h5, h6, decide_true, decide_false, Bool.true_and]
      congr 1; omega

theorem kField_eq_ofBool (v : Word) : kField v = BitVec.ofBool (v.getLsbD 4) := by
  unfold kField
  apply BitVec.eq_of_getLsbD_eq
  intro i hi
  have : i = 0 := by omega
  subst this
  simp

theorem kField_eq_one_iff (v : Word) : kField v = 1 ↔ v.getLsbD 4 = true := by
  rw [kField_eq_ofBool]
  cases v.getLsbD 4 <;> decide

theorem operation_none_iff (op : BitVec 4) (k : BitVec 1) : operation op k = none ↔ 7 ≤ op.toNat := by
  revert op k; decide

/-- The operation map gives a command its own `OP`, and its `K` where it has one. -/
theorem operation_some (op : BitVec 4) (k : BitVec 1) (i : Instr) (h : operation op k = some i) :
    i.op = op ∧ (op = 5 → i = .cmpacc k) ∧ (op ≠ 5 → i.kBit = 0 ∧ ∀ m, i.wf m = true) := by
  unfold operation at h
  split at h
  all_goals first
    | (injection h with h; subst h; rename_i heq; have hop : op = BitVec.ofNat 4 op.toNat := by simp
       rw [heq] at hop; subst hop
       refine ⟨rfl, ?_, ?_⟩ <;> simp [Instr.kBit, Instr.wf])
    | cases h

theorem operation_op (i : Instr) : operation i.op i.kBit = some i := by
  cases i <;> rfl

theorem cmpacc_wf_iff (m : AccLen) (k : BitVec 1) : (Instr.cmpacc k).wf m = true ↔ ¬ (k = 1 ∧ m = .m64) := by
  cases m <;> rcases bit_cases k with rfl | rfl <;> decide

/-- Everything the decoder can answer, by the fields of the word. -/
theorem decode_cases (m : AccLen) (v : Word) :
    (decode m v = .error .illop ∧
      (rsvdField v ≠ 0 ∨ 7 ≤ (opField v).toNat ∨ (kField v = 1 ∧ opField v ≠ 5))) ∨
    (decode m v = .error .badK ∧ rsvdField v = 0 ∧ opField v = 5 ∧ kField v = 1 ∧ m = .m64) ∨
    ∃ i, decode m v = .ok i ∧ rsvdField v = 0 ∧ (opField v).toNat < 7 ∧ ¬ (kField v = 1 ∧ opField v ≠ 5) ∧
      i.op = opField v ∧ i.kBit = kField v ∧ i.wf m = true := by
  unfold decode
  split
  case isTrue h => exact .inl ⟨rfl, .inl h⟩
  case isFalse h =>
    have hr : rsvdField v = 0 := by simpa using h
    cases ho : operation (opField v) (kField v) with
    | none => exact .inl ⟨rfl, .inr (.inl ((operation_none_iff _ _).1 ho))⟩
    | some i =>
      obtain ⟨h1, h2, h3⟩ := operation_some _ _ _ ho
      have hlt : (opField v).toNat < 7 := by
        by_contra hc
        rw [(operation_none_iff _ _).2 (by omega)] at ho
        cases ho
      simp only
      split
      case isTrue hk => exact .inl ⟨rfl, .inr (.inr hk)⟩
      case isFalse hk =>
        have hkb : i.kBit = kField v := by
          by_cases h5 : opField v = 5
          · rw [h2 h5]; rfl
          · rw [(h3 h5).1]
            rcases bit_cases (kField v) with h0 | h0
            · exact h0.symm
            · exact absurd ⟨h0, h5⟩ hk
        split
        case isTrue hw => exact .inr (.inr ⟨i, rfl, hr, hlt, hk, h1, hkb, hw⟩)
        case isFalse hw =>
          by_cases h5 : opField v = 5
          · rw [h2 h5, cmpacc_wf_iff, not_not] at hw
            exact .inr (.inl ⟨rfl, hr, h5, hw.1, hw.2⟩)
          · exact absurd ((h3 h5).2 m) hw

end Sys2Proof
end

