-- ==== Sys2Proof/Laws/Operands.lean ====
section
/-! SUPPORT. The word operators bit by bit, the words of `V`, and the length and the k-th word of every buffer an
operation builds. -/

namespace Sys2Proof.Machine

/-- The rotation of R9 is the library's. -/
theorem rotl_eq_rotateLeft (a : Word) (n : Nat) : rotl a n = a.rotateLeft n := by
  simp [rotl, BitVec.rotateLeft, BitVec.rotateLeftAux]

theorem getLsbD_rotl (a : Word) (n b : Nat) :
    (rotl a n).getLsbD b = if b < n % 32 then a.getLsbD (32 - n % 32 + b) else (decide (b < 32) && a.getLsbD (b - n % 32)) := by
  rw [rotl_eq_rotateLeft, BitVec.getLsbD_rotateLeft]
  by_cases h : b < n % 32 <;> simp [h]

theorem rotl_xor (a b : Word) (n : Nat) : rotl (a ^^^ b) n = rotl a n ^^^ rotl b n := by
  apply BitVec.eq_of_getLsbD_eq
  intro i hi
  simp only [BitVec.getLsbD_xor, getLsbD_rotl]
  split <;> simp [hi]

theorem rotl_rotl (a : Word) (m n : Nat) : rotl (rotl a m) n = rotl a (m + n) := by
  apply BitVec.eq_of_getLsbD_eq
  intro i hi
  have hm : m % 32 < 32 := Nat.mod_lt _ (by decide)
  have hn : n % 32 < 32 := Nat.mod_lt _ (by decide)
  simp only [getLsbD_rotl]
  generalize hx : m % 32 = x at *
  generalize hy : n % 32 = y at *
  have hz : (m + n) % 32 = x + y ∧ x + y < 32 ∨ (m + n) % 32 = x + y - 32 ∧ 32 ≤ x + y := by omega
  generalize (m + n) % 32 = z at hz
  have key : ∀ j k : Nat, j = k → a.getLsbD j = a.getLsbD k := fun _ _ h => by rw [h]
  rcases hz with ⟨rfl, hxy⟩ | ⟨rfl, hxy⟩ <;> repeat' split
  all_goals try simp only [decide_eq_true hi, decide_eq_true (show i - y < 32 by omega), Bool.true_and]
  all_goals try rw [decide_eq_true (show 32 - y + i < 32 by omega), Bool.true_and]
  all_goals first
    | omega
    | (apply key; omega)

@[simp] theorem chainSet_get (c : Chain) (i j : Fin 8) (x : Word) :
    chainGet (chainSet c i x) j = if j = i then x else chainGet c j := by
  fin_cases i <;> fin_cases j <;> rfl

@[simp] theorem chainOfRegs_regsOfChain (c : Chain) : chainOfRegs (regsOfChain c) = c := rfl

@[simp] theorem length_zeros (m : AccLen) : (zeros m).length = m.words := by simp [zeros]

@[simp] theorem getD_zeros (m : AccLen) (k : Nat) : (zeros m).getD k 0 = 0 := by
  simp only [zeros, List.getD_eq_getElem?_getD, List.getElem?_replicate]
  split <;> rfl

@[simp] theorem length_chunk (q : Nat) (ws : List Word) : (chunk q ws).length = 16 := by simp [chunk]

@[simp] theorem length_packWords (m : AccLen) (x : List Byte) : (packWords m x).length = m.words := by simp [packWords]

theorem getD_packWords (m : AccLen) (x : List Byte) (k : Nat) (hk : k < m.words) :
    (packWords m x).getD k 0 = wordAt x k := by
  simp [packWords, hk]

@[simp] theorem length_foldWords (m : AccLen) (a d : List Word) : (foldWords m a d).length = m.words := by
  simp [foldWords]

theorem getD_foldWords (m : AccLen) (a d : List Word) (k : Nat) (hk : k < m.words) :
    (foldWords m a d).getD k 0 = a.getD k 0 ^^^ d.getD k 0 := by
  simp [foldWords, hk]

/-- Two word buffers of one length with the same words are the same. -/
theorem words_ext {n : Nat} {a b : List Word} (ha : a.length = n) (hb : b.length = n)
    (h : ∀ k < n, a.getD k 0 = b.getD k 0) : a = b := by
  apply List.ext_getElem (ha.trans hb.symm)
  intro k h1 h2
  have := h k (ha ▸ h1)
  simpa [List.getD_eq_getElem?_getD, h1, h2] using this

@[simp] theorem length_byteView (ws : List Word) : (byteView ws).length = 4 * ws.length := by
  induction ws with
  | nil => rfl
  | cons w ws ih => simp [byteView, bytesBe] at *; omega

/-- `P_M` is a multiple of 64, with 4 bytes to a word and 64 to a chunk (R7). -/
theorem accLen_sizes (m : AccLen) :
    (m = .m64 ∧ m.bytes = 64 ∧ m.words = 16 ∧ m.chunks = 1) ∨
      (m = .m128 ∧ m.bytes = 128 ∧ m.words = 32 ∧ m.chunks = 2) := by
  cases m <;> decide

theorem four_words (m : AccLen) : 4 * m.words = m.bytes := by cases m <;> rfl

end Sys2Proof.Machine
end

