-- ==== Sys2Proof/Laws/Engine.lean ====
section
/-! SUPPORT. The message expansion, the rounds and the Compression Core at work, each described once. -/

namespace Sys2Proof.Machine

theorem length_expandFrom (n : Nat) (w : List Word) : (expandFrom n w).length = w.length + n := by
  induction n generalizing w with
  | zero => rfl
  | succ n ih => simp [expandFrom, ih]; omega

@[simp] theorem length_expandWords (b : List Word) : (expandWords b).length = b.length + 52 :=
  length_expandFrom 52 b

@[simp] theorem length_combineWords (w : List Word) : (combineWords w).length = 64 := by simp [combineWords]

theorem getD_combineWords (w : List Word) (j : Nat) (hj : j < 64) :
    (combineWords w).getD j 0 = w.getD j 0 ^^^ w.getD (j + 4) 0 := by
  simp [combineWords, hj]

/-- The words there are stay as the expansion goes on. -/
theorem getD_expandFrom_old (n : Nat) (w : List Word) (j : Nat) (hj : j < w.length) :
    (expandFrom n w).getD j 0 = w.getD j 0 := by
  induction n generalizing w with
  | zero => rfl
  | succ n ih =>
    rw [expandFrom, ih _ (by simp; omega)]
    simp [List.getD_eq_getElem?_getD, List.getElem?_append_left hj]

@[simp] theorem rounds_zero (p : Params) (j : Nat) (w wc : List Word) (r : Regs) : rounds p 0 j w wc r = r := rfl

theorem rounds_succ (p : Params) (n j : Nat) (w wc : List Word) (r : Regs) :
    rounds p (n + 1) j w wc r = rounds p n (j + 1) w wc (roundStep p j (w.getD j 0) (wc.getD j 0) r) := rfl

/-- The last of `n + 1` rounds is a round. -/
theorem rounds_last (p : Params) (n j : Nat) (w wc : List Word) (r : Regs) :
    rounds p (n + 1) j w wc r =
      roundStep p (j + n) (w.getD (j + n) 0) (wc.getD (j + n) 0) (rounds p n j w wc r) := by
  induction n generalizing j r with
  | zero => rfl
  | succ n ih =>
    rw [rounds_succ, ih, ← rounds_succ, Nat.add_right_comm j 1 n, Nat.add_assoc j n 1]

/-- A call just started is CF. -/
theorem coreOut_coreLoad (p : Params) (s : Chain) (b : List Word) (q : Nat) (todo : List (List Word)) :
    coreOut p (coreLoad s b q todo) = cf p s b := rfl

theorem coreFinish_coreLoad (p : Params) (s : Chain) (b : List Word) (q : Nat) (todo : List (List Word)) :
    coreFinish p (coreLoad s b q todo) = todo.foldl (cf p) (cf p s b) := rfl

/-- One tick changes nothing of what the core comes to. -/
theorem coreFinish_coreTick (p : Params) (c : CoreRun) : coreFinish p (coreTick p c) = coreFinish p c := by
  unfold coreTick
  split
  case isTrue h =>
    obtain ⟨n, hn⟩ : ∃ n, 64 - c.j = n + 1 := ⟨63 - c.j, by omega⟩
    have hn' : 64 - (c.j + 1) = n := by omega
    simp only [coreFinish, coreOut, hn, hn', rounds_succ]
  case isFalse h =>
    cases htodo : c.todo with
    | nil => rfl
    | cons b rest => simp [coreFinish, htodo, coreLoad]; rfl

@[simp] theorem jobResult_jobTick (p : Params) (j : Job) : jobResult p (jobTick p j) = jobResult p j := by
  cases j with
  | ready v acc => rfl
  | compress run acc => simp [jobTick, jobResult, coreFinish_coreTick]

/-- FINAL's chain of calls is `Finalize` (R196). -/
theorem foldl_laterChunks (p : Params) (acc : List Word) :
    (laterChunks p.accLen acc).foldl (cf p) (cf p p.iv (chunk 0 acc)) = finalize p acc := by
  unfold finalize laterChunks
  cases p.accLen <;> rfl

end Sys2Proof.Machine
end

