-- ==== Sys2Proof/Laws/State.lean ====
section
/-! SUPPORT. The shared updates of the state, field by field: one lemma per field per update, each true by unfolding the
record update, so that no later proof unfolds one. -/

namespace Sys2Proof.Machine

variable (s : State)

@[simp] theorem raise_params (c : ErrCode) : (s.raise c).params = s.params := rfl
@[simp] theorem raise_v (c : ErrCode) : (s.raise c).v = s.v := rfl
@[simp] theorem raise_acc (c : ErrCode) : (s.raise c).acc = s.acc := rfl
@[simp] theorem raise_din (c : ErrCode) : (s.raise c).din = s.din := rfl
@[simp] theorem raise_ie (c : ErrCode) : (s.raise c).ie = s.ie := rfl
@[simp] theorem raise_status (c : ErrCode) : (s.raise c).status = raiseError c s.status := rfl
@[simp] theorem raise_running (c : ErrCode) : (s.raise c).running = s.running := rfl
@[simp] theorem raise_hostOps (c : ErrCode) : (s.raise c).hostOps = s.hostOps := rfl
@[simp] theorem raise_turns (c : ErrCode) : (s.raise c).turns = s.turns := rfl
@[simp] theorem raise_reads (c : ErrCode) : (s.raise c).reads = s.reads := rfl
@[simp] theorem raise_draws (c : ErrCode) : (s.raise c).draws = s.draws := rfl

@[simp] theorem acceptIllegal_params (c : ErrCode) : (s.acceptIllegal c).params = s.params := rfl
@[simp] theorem acceptIllegal_v (c : ErrCode) : (s.acceptIllegal c).v = s.v := rfl
@[simp] theorem acceptIllegal_acc (c : ErrCode) : (s.acceptIllegal c).acc = s.acc := rfl
@[simp] theorem acceptIllegal_din (c : ErrCode) : (s.acceptIllegal c).din = s.din := rfl
@[simp] theorem acceptIllegal_ie (c : ErrCode) : (s.acceptIllegal c).ie = s.ie := rfl
@[simp] theorem acceptIllegal_status (c : ErrCode) : (s.acceptIllegal c).status = statusIllegal c s.status := rfl
@[simp] theorem acceptIllegal_running (c : ErrCode) : (s.acceptIllegal c).running = s.running := rfl
@[simp] theorem acceptIllegal_hostOps (c : ErrCode) : (s.acceptIllegal c).hostOps = s.hostOps := rfl
@[simp] theorem acceptIllegal_turns (c : ErrCode) : (s.acceptIllegal c).turns = s.turns := rfl
@[simp] theorem acceptIllegal_reads (c : ErrCode) : (s.acceptIllegal c).reads = s.reads := rfl
@[simp] theorem acceptIllegal_draws (c : ErrCode) : (s.acceptIllegal c).draws = s.draws := rfl

@[simp] theorem acceptLegal_params (r : Running) : (s.acceptLegal r).params = s.params := rfl
@[simp] theorem acceptLegal_v (r : Running) : (s.acceptLegal r).v = s.v := rfl
@[simp] theorem acceptLegal_acc (r : Running) : (s.acceptLegal r).acc = s.acc := rfl
@[simp] theorem acceptLegal_din (r : Running) : (s.acceptLegal r).din = s.din := rfl
@[simp] theorem acceptLegal_ie (r : Running) : (s.acceptLegal r).ie = s.ie := rfl
@[simp] theorem acceptLegal_status (r : Running) : (s.acceptLegal r).status = statusAccept s.status := rfl
@[simp] theorem acceptLegal_running (r : Running) : (s.acceptLegal r).running = some r := rfl
@[simp] theorem acceptLegal_hostOps (r : Running) : (s.acceptLegal r).hostOps = s.hostOps := rfl
@[simp] theorem acceptLegal_turns (r : Running) : (s.acceptLegal r).turns = s.turns := rfl
@[simp] theorem acceptLegal_reads (r : Running) : (s.acceptLegal r).reads = s.reads := rfl
@[simp] theorem acceptLegal_draws (r : Running) : (s.acceptLegal r).draws = s.draws := rfl

@[simp] theorem commit_params (x : Chain × List Word) : (s.commit x).params = s.params := rfl
@[simp] theorem commit_v (x : Chain × List Word) : (s.commit x).v = x.1 := rfl
@[simp] theorem commit_acc (x : Chain × List Word) : (s.commit x).acc = x.2 := rfl
@[simp] theorem commit_din (x : Chain × List Word) : (s.commit x).din = s.din := rfl
@[simp] theorem commit_ie (x : Chain × List Word) : (s.commit x).ie = s.ie := rfl
@[simp] theorem commit_status (x : Chain × List Word) : (s.commit x).status = statusComplete s.status := rfl
@[simp] theorem commit_running (x : Chain × List Word) : (s.commit x).running = none := rfl
@[simp] theorem commit_hostOps (x : Chain × List Word) : (s.commit x).hostOps = s.hostOps := rfl
@[simp] theorem commit_turns (x : Chain × List Word) : (s.commit x).turns = s.turns := rfl
@[simp] theorem commit_reads (x : Chain × List Word) : (s.commit x).reads = s.reads := rfl
@[simp] theorem commit_draws (x : Chain × List Word) : (s.commit x).draws = s.draws := rfl

@[simp] theorem resetBlock_params : (s.resetBlock).params = s.params := rfl
@[simp] theorem resetBlock_v : (s.resetBlock).v = s.params.iv := rfl
@[simp] theorem resetBlock_acc : (s.resetBlock).acc = zeros s.params.accLen := rfl
@[simp] theorem resetBlock_din : (s.resetBlock).din = zeros s.params.accLen := rfl
@[simp] theorem resetBlock_ie : (s.resetBlock).ie = false := rfl
@[simp] theorem resetBlock_status : (s.resetBlock).status = statusReset := rfl
@[simp] theorem resetBlock_running : (s.resetBlock).running = none := rfl
@[simp] theorem resetBlock_hostOps : (s.resetBlock).hostOps = s.hostOps := rfl
@[simp] theorem resetBlock_turns : (s.resetBlock).turns = s.turns := rfl
@[simp] theorem resetBlock_reads : (s.resetBlock).reads = s.reads := rfl
@[simp] theorem resetBlock_draws : (s.resetBlock).draws = s.draws := rfl

@[simp] theorem statusAccept_busy (st : Status) : (statusAccept st).busy = true := rfl
@[simp] theorem statusAccept_done (st : Status) : (statusAccept st).done = false := rfl
@[simp] theorem statusAccept_err (st : Status) : (statusAccept st).err = st.err := rfl
@[simp] theorem statusAccept_ecode (st : Status) : (statusAccept st).ecode = st.ecode := rfl

@[simp] theorem statusComplete_busy (st : Status) : (statusComplete st).busy = false := rfl
@[simp] theorem statusComplete_done (st : Status) : (statusComplete st).done = true := rfl
@[simp] theorem statusComplete_err (st : Status) : (statusComplete st).err = st.err := rfl
@[simp] theorem statusComplete_ecode (st : Status) : (statusComplete st).ecode = st.ecode := rfl

@[simp] theorem statusReset_busy : statusReset.busy = false := rfl
@[simp] theorem statusReset_done : statusReset.done = false := rfl
@[simp] theorem statusReset_err : statusReset.err = false := rfl
@[simp] theorem statusReset_ecode : statusReset.ecode = 0 := rfl

@[simp] theorem raiseError_busy (c : ErrCode) (st : Status) : (raiseError c st).busy = st.busy := by
  unfold raiseError; split <;> rfl

@[simp] theorem raiseError_done (c : ErrCode) (st : Status) : (raiseError c st).done = st.done := by
  unfold raiseError; split <;> rfl

@[simp] theorem raiseError_err (c : ErrCode) (st : Status) : (raiseError c st).err = true := by
  unfold raiseError; split <;> simp_all

@[simp] theorem raiseError_ecode (c : ErrCode) (st : Status) :
    (raiseError c st).ecode = if st.err then st.ecode else errBits c := by
  unfold raiseError; split <;> rfl

@[simp] theorem statusIllegal_busy (c : ErrCode) (st : Status) : (statusIllegal c st).busy = st.busy := by
  simp [statusIllegal]

@[simp] theorem statusIllegal_done (c : ErrCode) (st : Status) : (statusIllegal c st).done = true := rfl

@[simp] theorem statusIllegal_err (c : ErrCode) (st : Status) : (statusIllegal c st).err = true := by
  simp [statusIllegal]

@[simp] theorem statusIllegal_ecode (c : ErrCode) (st : Status) :
    (statusIllegal c st).ecode = if st.err then st.ecode else errBits c := by
  simp [statusIllegal]

@[simp] theorem statusWrite_busy (v : Word) (st : Status) : (statusWrite v st).busy = st.busy := rfl
@[simp] theorem statusWrite_done (v : Word) (st : Status) :
    (statusWrite v st).done = (st.done && !v.getLsbD 1) := rfl
@[simp] theorem statusWrite_err (v : Word) (st : Status) :
    (statusWrite v st).err = (st.err && !v.getLsbD 2) := rfl
@[simp] theorem statusWrite_ecode (v : Word) (st : Status) :
    (statusWrite v st).ecode = if v.getLsbD 2 then 0 else st.ecode := rfl

end Sys2Proof.Machine
end

