-- ==== Sys2Proof/Laws/Exec.lean ====
section
/-! SUPPORT. Presenting and completing a command, each said once, and what every meaning presents. -/

namespace Sys2Proof.Machine

theorem present_busy (s : State) (c : Presented) (h : s.status.busy = true) : s.present c = s.raise .busyWr := by
  simp [State.present, h]

theorem present_ok (s : State) (r : Running) (h : s.status.busy = false) : s.present (.ok r) = s.acceptLegal r := by
  simp [State.present, h]

theorem present_error (s : State) (c : ErrCode) (h : s.status.busy = false) :
    s.present (.error c) = s.acceptIllegal c := by
  simp [State.present, h]

/-- Everything presenting a command can do. -/
theorem present_cases (s : State) (c : Presented) :
    (s.status.busy = true ∧ s.present c = s.raise .busyWr) ∨
      (s.status.busy = false ∧ ∃ e, c = .error e ∧ s.present c = s.acceptIllegal e) ∨
      (s.status.busy = false ∧ ∃ r, c = .ok r ∧ s.present c = s.acceptLegal r) := by
  cases hb : s.status.busy
  · cases c with
    | error e => exact .inr (.inl ⟨rfl, e, rfl, present_error s e hb⟩)
    | ok r => exact .inr (.inr ⟨rfl, r, rfl, present_ok s r hb⟩)
  · exact .inl ⟨rfl, present_busy s c hb⟩

/-- Everything the completion step can do. -/
theorem complete_cases (s : State) :
    (s.running = none ∧ s.complete = s) ∨
      ∃ r, s.running = some r ∧ s.complete = s.commit (jobResult s.params r.job) := by
  unfold State.complete
  cases h : s.running with
  | none => exact .inl ⟨rfl, rfl⟩
  | some r => exact .inr ⟨r, rfl, rfl⟩

/-- Everything an internal round can do. -/
theorem roundTick_cases (s : State) :
    (s.running = none ∧ s.roundTick = s) ∨
      ∃ r, s.running = some r ∧
        s.roundTick = { s with running := some { r with job := jobTick s.params r.job } } := by
  unfold State.roundTick
  cases h : s.running with
  | none => exact .inl ⟨rfl, rfl⟩
  | some r => exact .inr ⟨r, rfl, rfl⟩

/-- A call started on a 16-word message has the shape R37 describes. -/
theorem coreLoad_wf (m : AccLen) (v : Chain) (b : List Word) (todo : List (List Word)) (hb : b.length = 16)
    (ht : todo.length < m.chunks) (hall : ∀ b ∈ todo, b.length = 16) : (coreLoad v b 0 todo).Wf m :=
  ⟨by simp [coreLoad, hb], rfl, by simp [coreLoad], by simpa [coreLoad] using ht, hall⟩

theorem chunks_pos (m : AccLen) : 0 < m.chunks := by cases m <;> decide

/-- Every meaning presents its own command, what it latches comes to the effect of R119, and the internal state it starts
has the shape of R37; only a `K` the accumulator does not have is presented as illegal. -/
theorem exec_presents (i : Instr) (s : State) :
    (∃ job, exec i s = .next (s.present (.ok ⟨i, job⟩)) ∧ i.wf s.params.accLen = true ∧
      jobResult s.params job = effect s.params i s.v s.din s.acc ∧
      (s.acc.length = s.params.accLen.words → job.Wf s.params.accLen)) ∨
    (i.wf s.params.accLen = false ∧ exec i s = .next (s.present (.error .badK))) := by
  cases i with
  | nop => exact .inl ⟨_, rfl, rfl, rfl, id⟩
  | initv => exact .inl ⟨_, rfl, rfl, rfl, id⟩
  | clracc => exact .inl ⟨_, rfl, rfl, rfl, fun _ => length_zeros _⟩
  | fold => exact .inl ⟨_, rfl, rfl, rfl, fun _ => length_foldWords _ _ _⟩
  | cmpdin =>
    exact .inl ⟨_, rfl, rfl, rfl, fun h => ⟨coreLoad_wf _ _ _ _ (length_chunk _ _) (chunks_pos _) (by simp), h⟩⟩
  | cmpacc k =>
    simp only [exec, execCmpacc, Instr.wf]
    split
    case isTrue hk =>
      exact .inl ⟨_, rfl, by simpa using hk, rfl,
        fun h => ⟨coreLoad_wf _ _ _ _ (length_chunk _ _) (chunks_pos _) (by simp), h⟩⟩
    case isFalse hk => exact .inr ⟨by simpa using hk, rfl⟩
  | final =>
    refine .inl ⟨_, rfl, rfl, by simp only [jobResult, coreFinish_coreLoad, foldl_laterChunks, effect], fun _ =>
      ⟨coreLoad_wf _ _ _ _ (length_chunk _ _) ?_ ?_, length_zeros _⟩⟩
    · have := chunks_pos s.params.accLen
      simp [laterChunks]; omega
    · simp only [laterChunks, List.mem_map]
      rintro b ⟨q, -, rfl⟩
      exact length_chunk _ _

/-- A legal command accepted and completed while idle: the effect of R119, committed. -/
theorem runCommand_legal (i : Instr) (s : State) (hb : s.status.busy = false) (hw : i.wf s.params.accLen = true) :
    runCommand i s = s.finished (effect s.params i s.v s.din s.acc).1 (effect s.params i s.v s.din s.acc).2 := by
  rcases exec_presents i s with ⟨job, h, -, he, -⟩ | ⟨h, -⟩
  · simp only [runCommand, h, present_ok _ _ hb, ← he]; rfl
  · rw [hw] at h; cases h

/-- A meaning always answers a next state. -/
theorem exec_next (i : Instr) (s : State) : ∃ t, exec i s = .next t := by
  rcases exec_presents i s with ⟨job, h, -⟩ | ⟨-, h⟩ <;> exact ⟨_, h⟩

end Sys2Proof.Machine
end

