-- ==== Sys2Proof/Laws/Bus.lean ====
section
/-! SUPPORT. The register map, and a `BusRead` and a `BusWrite` at each of its registers. -/

namespace Sys2Proof.Machine

@[simp] theorem regAt_ctrl (m : AccLen) : regAt m 0 = .ctrl := rfl
@[simp] theorem regAt_status (m : AccLen) : regAt m 4 = .status := rfl
@[simp] theorem regAt_cmd (m : AccLen) : regAt m 8 = .cmd := rfl
@[simp] theorem regAt_cfg (m : AccLen) : regAt m 12 = .cfg := rfl

theorem regAt_v (m : AccLen) (i : Fin 8) : regAt m (0x020 + 4 * i.val) = .v i := by
  have hi := i.isLt
  unfold regAt
  rw [if_neg (by omega), if_neg (by omega), if_neg (by omega), if_neg (by omega), dif_pos (by omega)]
  congr
  omega

theorem regAt_din (m : AccLen) (k : Nat) (hk : k < m.words) : regAt m (0x100 + 4 * k) = .din k := by
  have := four_words m
  unfold regAt
  rw [if_neg (by omega), if_neg (by omega), if_neg (by omega), if_neg (by omega), dif_neg (by omega),
    if_pos (by omega)]
  congr
  omega

theorem regAt_acc (m : AccLen) (k : Nat) (hk : k < m.words) : regAt m (0x200 + 4 * k) = .acc k := by
  have := four_words m
  have : m.bytes ≤ 128 := by cases m <;> decide
  unfold regAt
  rw [if_neg (by omega), if_neg (by omega), if_neg (by omega), if_neg (by omega), dif_neg (by omega),
    if_neg (by omega), if_pos (by omega)]
  congr
  omega

/-- The access of a register that the map has is the register's. -/
theorem withOffset_defined (p : Params) (addr : Nat) (k : Nat → Host.Outcome State Fault Refusal)
    (h : DefinedAccess p .word addr) : withOffset p .word addr k = k (addr - p.base) := by
  obtain ⟨-, h1, h2, h3⟩ := h
  unfold withOffset windowBytes
  rw [if_neg (by omega), if_neg (by simp), if_neg (by omega)]

theorem defined_regOffset (p : Params) (off : Nat) (h : off < 0x1000) (h4 : off % 4 = 0) :
    DefinedAccess p .word (p.base + off) :=
  ⟨rfl, by omega, by omega, by rw [Nat.add_sub_cancel_left]; exact h4⟩

/-- A read at a defined offset. -/
theorem busRead_offset (s : State) (off : Nat) (h : off < 0x1000) (h4 : off % 4 = 0) :
    busRead .word (s.params.base + off) s = .next (readReg (regAt s.params.accLen off) s) := by
  rw [busRead, withOffset_defined _ _ _ (defined_regOffset _ off h h4), Nat.add_sub_cancel_left]

/-- A write at a defined offset. -/
theorem busWrite_offset (s : State) (off : Nat) (v : Word) (h : off < 0x1000) (h4 : off % 4 = 0) :
    busWrite .word (s.params.base + off) v s = writeReg (regAt s.params.accLen off) v s := by
  rw [busWrite, withOffset_defined _ _ _ (defined_regOffset _ off h h4), Nat.add_sub_cancel_left]

theorem words_le (m : AccLen) : m.words ≤ 32 := by cases m <;> decide

/-- A write to each register, at its own address. -/
theorem busWrite_ctrl (s : State) (x : Word) : busWrite .word (regAddr s.params .ctrl) x s = .next (writeCtrl x s) :=
  busWrite_offset s 0x000 x (by decide) rfl

theorem busWrite_status (s : State) (x : Word) :
    busWrite .word (regAddr s.params .status) x s = .next { s with status := statusWrite x s.status } :=
  busWrite_offset s 0x004 x (by decide) rfl

theorem busWrite_cmd (s : State) (x : Word) : busWrite .word (regAddr s.params .cmd) x s = writeCmd x s :=
  busWrite_offset s 0x008 x (by decide) rfl

theorem busWrite_cfg (s : State) (x : Word) : busWrite .word (regAddr s.params .cfg) x s = .next s :=
  busWrite_offset s 0x00C x (by decide) rfl

theorem busWrite_v (s : State) (i : Fin 8) (x : Word) :
    busWrite .word (regAddr s.params (.v i)) x s = .next (writeIdle s { s with v := chainSet s.v i x }) := by
  have h := busWrite_offset s (0x020 + 4 * i.val) x (by omega) (by omega)
  rw [regAt_v] at h
  exact h

theorem busWrite_din (s : State) (k : Nat) (x : Word) (hk : k < s.params.accLen.words) :
    busWrite .word (regAddr s.params (.din k)) x s = .next (writeIdle s { s with din := s.din.set k x }) := by
  have hw := words_le s.params.accLen
  have h := busWrite_offset s (0x100 + 4 * k) x (by omega) (by omega)
  rw [regAt_din _ _ hk] at h
  exact h

theorem busWrite_acc (s : State) (k : Nat) (x : Word) (hk : k < s.params.accLen.words) :
    busWrite .word (regAddr s.params (.acc k)) x s = .next s := by
  have hw := words_le s.params.accLen
  have h := busWrite_offset s (0x200 + 4 * k) x (by omega) (by omega)
  rw [regAt_acc _ _ hk] at h
  exact h

/-- Whether the instance has the register (R61). -/
def regExists (m : AccLen) : Reg → Prop
  | .ctrl => True
  | .status => True
  | .cmd => True
  | .cfg => True
  | .v _ => True
  | .din k => k < m.words
  | .acc k => k < m.words
  | .reserved _ => False

/-- A read of each register, at its own address. -/
theorem busRead_reg (s : State) (r : Reg) (h : regExists s.params.accLen r) :
    busRead .word (regAddr s.params r) s = .next (readReg r s) := by
  have hw := words_le s.params.accLen
  cases r with
  | ctrl => exact busRead_offset s 0x000 (by decide) rfl
  | status => exact busRead_offset s 0x004 (by decide) rfl
  | cmd => exact busRead_offset s 0x008 (by decide) rfl
  | cfg => exact busRead_offset s 0x00C (by decide) rfl
  | v i =>
    have hr := busRead_offset s (0x020 + 4 * i.val) (by omega) (by omega)
    rw [regAt_v] at hr
    exact hr
  | din k =>
    have hk : k < s.params.accLen.words := h
    have hr := busRead_offset s (0x100 + 4 * k) (by omega) (by omega)
    rw [regAt_din _ _ hk] at hr
    exact hr
  | acc k =>
    have hk : k < s.params.accLen.words := h
    have hr := busRead_offset s (0x200 + 4 * k) (by omega) (by omega)
    rw [regAt_acc _ _ hk] at hr
    exact hr
  | reserved off => exact h.elim

/-- What a `BusRead` returns where the spec fixes it, and the state it leaves. -/
theorem readReg_stored (r : Reg) (s : State) (h : readIsFree r s = false) :
    readReg r s = s.withRead (storedValue r s) := by
  simp [readReg, readValue, h, State.withRead]

theorem readReg_free (r : Reg) (s : State) (h : readIsFree r s = true) :
    readReg r s = { s.withRead (Config.freeRead s.draws) with draws := s.draws + 1 } := by
  simp [readReg, readValue, h, State.withRead]

theorem readIsFree_idle (r : Reg) (s : State) (h : s.status.busy = false) : readIsFree r s = false := by
  cases r <;> simp [readIsFree, h]

/-- Everything a write to `CMD` can do: the decoded command's meaning, or the decoder's error. -/
theorem writeCmd_presents (v : Word) (s : State) : ∃ c : Presented, writeCmd v s = .next (s.present c) ∧
    ∀ r, c = .ok r → r.cmd.wf s.params.accLen = true ∧
      jobResult s.params r.job = effect s.params r.cmd s.v s.din s.acc ∧
      (s.acc.length = s.params.accLen.words → r.job.Wf s.params.accLen) := by
  unfold writeCmd
  cases hd : decode s.params.accLen v with
  | error c => exact ⟨_, rfl, by simp⟩
  | ok i =>
    rcases exec_presents i s with ⟨job, h, hw, he, hj⟩ | ⟨-, h⟩
    · exact ⟨_, h, by rintro r ⟨⟩; exact ⟨hw, he, hj⟩⟩
    · exact ⟨_, h, by simp⟩

/-- Everything a write to a register can do: nothing, an update of `STATUS` or of `CTRL`, a reset, a store into `V` or
`DIN` while idle, the drop of such a write while busy, or a command presented. -/
theorem writeReg_cases (r : Reg) (v : Word) (s : State) :
    writeReg r v s = .next s ∨
    (r = .ctrl ∧ v.getLsbD 1 = true ∧ writeReg r v s = .next s.resetBlock) ∨
    (r = .ctrl ∧ v.getLsbD 1 = false ∧ writeReg r v s = .next { s with ie := v.getLsbD 0 }) ∨
    (r = .status ∧ writeReg r v s = .next { s with status := statusWrite v s.status }) ∨
    (s.status.busy = true ∧ ((∃ i, r = .v i) ∨ ∃ k, r = .din k) ∧ writeReg r v s = .next (s.raise .busyWr)) ∨
    (s.status.busy = false ∧ ∃ i, r = .v i ∧ writeReg r v s = .next { s with v := chainSet s.v i v }) ∨
    (s.status.busy = false ∧ ∃ k, r = .din k ∧ writeReg r v s = .next { s with din := s.din.set k v }) ∨
    (r = .cmd ∧ ∃ c : Presented, writeReg r v s = .next (s.present c) ∧
      ∀ r, c = .ok r → r.cmd.wf s.params.accLen = true ∧
        jobResult s.params r.job = effect s.params r.cmd s.v s.din s.acc ∧
        (s.acc.length = s.params.accLen.words → r.job.Wf s.params.accLen)) := by
  cases r with
  | ctrl =>
    cases h : v.getLsbD 1
    · exact .inr (.inr (.inl ⟨rfl, rfl, by simp only [writeReg, writeCtrl, h, Bool.false_eq_true, if_false]⟩))
    · exact .inr (.inl ⟨rfl, rfl, by simp only [writeReg, writeCtrl, h, if_true]⟩)
  | status => exact .inr (.inr (.inr (.inl ⟨rfl, rfl⟩)))
  | cmd => exact .inr (.inr (.inr (.inr (.inr (.inr (.inr ⟨rfl, writeCmd_presents v s⟩))))))
  | cfg => exact .inl rfl
  | v i =>
    cases h : s.status.busy
    · exact .inr (.inr (.inr (.inr (.inr (.inl ⟨rfl, i, rfl, by simp [writeReg, writeIdle, h]⟩)))))
    · exact .inr (.inr (.inr (.inr (.inl ⟨rfl, .inl ⟨i, rfl⟩, by simp [writeReg, writeIdle, h]⟩))))
  | din k =>
    cases h : s.status.busy
    · exact .inr (.inr (.inr (.inr (.inr (.inr (.inl ⟨rfl, k, rfl, by simp [writeReg, writeIdle, h]⟩))))))
    · exact .inr (.inr (.inr (.inr (.inl ⟨rfl, .inr ⟨k, rfl⟩, by simp [writeReg, writeIdle, h]⟩))))
  | acc k => exact .inl rfl
  | reserved off => exact .inl rfl

/-- A write to any register answers a next state. -/
theorem writeReg_next (r : Reg) (v : Word) (s : State) : ∃ t, writeReg r v s = .next t := by
  rcases writeReg_cases r v s with h | ⟨-, -, h⟩ | ⟨-, -, h⟩ | ⟨-, h⟩ | ⟨-, -, h⟩ |
    ⟨-, _, -, h⟩ | ⟨-, _, -, h⟩ | ⟨-, _, h, -⟩ <;>
    exact ⟨_, h⟩

/-- An access that answers a next state is one the spec defines. -/
theorem withOffset_next (p : Params) (size : AccessSize) (addr : Nat) (k : Nat → Host.Outcome State Fault Refusal)
    (t : State) (h : withOffset p size addr k = .next t) :
    DefinedAccess p size addr ∧ k (addr - p.base) = .next t := by
  unfold withOffset windowBytes at h
  split at h
  · cases h
  · split at h
    · cases h
    · split at h
      · cases h
      case _ h1 h2 h3 => exact ⟨⟨by simpa using h2, by omega, by omega, by omega⟩, h⟩

/-- A read that answers a next state, and a write, are of an access the spec defines. -/
theorem busRead_next (s t : State) (size : AccessSize) (addr : Nat) (h : busRead size addr s = .next t) :
    DefinedAccess s.params size addr ∧ t = readReg (regAt s.params.accLen (addr - s.params.base)) s := by
  obtain ⟨hd, hk⟩ := withOffset_next _ _ _ _ _ h
  injection hk with hk
  exact ⟨hd, hk.symm⟩

theorem busWrite_next (s t : State) (size : AccessSize) (addr : Nat) (v : Word) (h : busWrite size addr v s = .next t) :
    DefinedAccess s.params size addr ∧ writeReg (regAt s.params.accLen (addr - s.params.base)) v s = .next t :=
  withOffset_next _ _ _ _ _ h

end Sys2Proof.Machine
end

