-- ==== Sys2Proof/Laws/PerInstr.lean ====
section
/-! SUPPORT. The encoding of every command, one lemma per constructor: its word is the row of spec 30_encoding.md R92. -/

namespace Sys2Proof.Laws.CommandWord

/-- The command word keeps the fixed fields of R91 and R92: no reserved bit is set, `OP` is one of the seven operations,
and `K` is set by CMPACC alone. -/
def Statement (i : Instr) : Prop :=
  rsvdField (encode i) = 0 ∧ (opField (encode i)).toNat < 7 ∧ opField (encode i) = i.op ∧
    (kField (encode i) = 1 → i = .cmpacc 1)

theorem nop : Statement .nop := by unfold Statement; decide

theorem initv : Statement .initv := by unfold Statement; decide

theorem clracc : Statement .clracc := by unfold Statement; decide

theorem fold : Statement .fold := by unfold Statement; decide

theorem cmpdin : Statement .cmpdin := by unfold Statement; decide

theorem cmpacc (k : BitVec 1) : Statement (.cmpacc k) := by unfold Statement; revert k; decide

theorem final : Statement .final := by unfold Statement; decide

end Sys2Proof.Laws.CommandWord
end

