-- ==== Sys2Proof/Laws/Step.lean ====
section
/-! SUPPORT. What a step can do, said once: every claim about a step is a case analysis over `step_cases`. -/

namespace Sys2Proof.Machine

/-- What a host operation can do to the state from which it was taken: a write to a register, or a read, which changes
only the model's own fields and may put the operation back. -/
theorem runHostOp_cases (op : HostOp) (s t : State) (h : runHostOp op s = .next t) :
    (∃ (addr : Nat) (v : Word), op = .wr .word addr v ∧ DefinedAccess s.params .word addr ∧
      writeReg (regAt s.params.accLen (addr - s.params.base)) v s = .next t) ∨
    (∃ (ops : List HostOp) (x : Word) (d : Nat), (ops = s.hostOps ∨ ops = op :: s.hostOps) ∧
      t = { s with hostOps := ops, reads := x :: s.reads, draws := d }) := by
  cases op with
  | wr size addr v =>
    obtain ⟨hd, hk⟩ := busWrite_next s t size addr v h
    obtain rfl : size = .word := hd.1
    exact .inl ⟨addr, v, rfl, hd, hk⟩
  | rd size addr =>
    obtain ⟨-, rfl⟩ := busRead_next s t size addr h
    exact .inr ⟨s.hostOps, _, _, .inl rfl, rfl⟩
  | poll addr =>
    unfold runHostOp busPoll at h
    obtain ⟨-, hk⟩ := withOffset_next _ _ _ _ _ h
    injection hk with hk
    by_cases hb : (readValue (regAt s.params.accLen (addr - s.params.base)) s).getLsbD 0 = true
    · rw [if_pos hb] at hk
      exact .inr ⟨.poll addr :: s.hostOps, _, _, .inr rfl, hk.symm⟩
    · rw [if_neg hb] at hk
      exact .inr ⟨s.hostOps, _, _, .inl rfl, hk.symm⟩

/-- Everything a step can do, from the state with its turn taken: an idle host, a host operation, an internal round, a
completion, a hardware reset. -/
theorem step_cases (s t : State) (h : step s = .next t) :
    (nextTurn s = .host ∧ s.hostOps = [] ∧ t = takeTurn s) ∨
    (nextTurn s = .host ∧ ∃ op rest, s.hostOps = op :: rest ∧
      runHostOp op { takeTurn s with hostOps := rest } = .next t) ∨
    (nextTurn s = .round ∧ t = (takeTurn s).roundTick) ∨
    (nextTurn s = .complete ∧ t = (takeTurn s).complete) ∨
    (nextTurn s = .reset ∧ t = (takeTurn s).resetBlock) := by
  unfold step at h
  cases hn : nextTurn s with
  | host =>
    rw [hn] at h
    unfold runTurn hostMove at h
    cases ho : s.hostOps with
    | nil =>
      simp only [takeTurn, ho] at h
      injection h with h
      exact .inl ⟨rfl, rfl, by rw [← h]; simp [takeTurn, ho]⟩
    | cons op rest =>
      simp only [takeTurn, ho] at h
      exact .inr (.inl ⟨rfl, op, rest, rfl, h⟩)
  | round => rw [hn] at h; injection h with h; exact .inr (.inr (.inl ⟨rfl, h.symm⟩))
  | complete => rw [hn] at h; injection h with h; exact .inr (.inr (.inr (.inl ⟨rfl, h.symm⟩)))
  | reset => rw [hn] at h; injection h with h; exact .inr (.inr (.inr (.inr ⟨rfl, h.symm⟩)))

/-- A run goes on from the step's next state. -/
theorem run_succ (n : Nat) (s t : State) (h : step s = .next t) :
    Host.Core.run Sys2Proof.core (n + 1) s = Host.Core.run Sys2Proof.core n t := by
  have hs : Sys2Proof.core.step s = .next t := h
  simp only [Host.Core.run, hs]

/-- A run that answers a next state starts with a step that does. -/
theorem run_next (n : Nat) (s t : State) (h : Host.Core.run Sys2Proof.core (n + 1) s = .next t) :
    ∃ u, step s = .next u ∧ Host.Core.run Sys2Proof.core n u = .next t := by
  cases hs : step s with
  | next u => exact ⟨u, rfl, by rwa [run_succ n s u hs] at h⟩
  | fault r =>
    have hs' : Sys2Proof.core.step s = .fault r := hs
    simp only [Host.Core.run, hs'] at h
    cases h
  | refused r =>
    have hs' : Sys2Proof.core.step s = .refused r := hs
    simp only [Host.Core.run, hs'] at h
    cases h

/-- A step on each turn of the block and of the platform. -/
theorem step_turn (s : State) (t : Turn) (ts : List Turn) (h : s.turns = t :: ts) :
    step s = runTurn t { s with turns := ts } := by
  unfold step nextTurn takeTurn
  rw [h]; rfl

@[simp] theorem takeTurn_params (s : State) : (takeTurn s).params = s.params := rfl
@[simp] theorem takeTurn_v (s : State) : (takeTurn s).v = s.v := rfl
@[simp] theorem takeTurn_acc (s : State) : (takeTurn s).acc = s.acc := rfl
@[simp] theorem takeTurn_din (s : State) : (takeTurn s).din = s.din := rfl
@[simp] theorem takeTurn_ie (s : State) : (takeTurn s).ie = s.ie := rfl
@[simp] theorem takeTurn_status (s : State) : (takeTurn s).status = s.status := rfl
@[simp] theorem takeTurn_running (s : State) : (takeTurn s).running = s.running := rfl
@[simp] theorem takeTurn_hostOps (s : State) : (takeTurn s).hostOps = s.hostOps := rfl
@[simp] theorem takeTurn_turns (s : State) : (takeTurn s).turns = s.turns.tail := rfl
@[simp] theorem takeTurn_reads (s : State) : (takeTurn s).reads = s.reads := rfl
@[simp] theorem takeTurn_draws (s : State) : (takeTurn s).draws = s.draws := rfl

end Sys2Proof.Machine
end

