-- ==== Sys2Proof/Tests/Slice0.lean ====
section
/-! SUPPORT. The model's own tests, expected values taken from spec 95_test_vectors.md and the tables it cites, and after
them the witnesses: for each obligation with hypotheses, concrete states and operands that meet them together, every
clause at a boundary of its range. -/

namespace Sys2Proof.Tests

open Sys2Proof Sys2Proof.Machine

/-! ## Small states -/

/-- The default parameters with `P_M = 64`. -/
def p64 : Params := { paramsDefault with accLen := .m64 }

/-- A window that does not begin at address 0. -/
def pHigh : Params := { paramsDefault with base := 0x1000 }

/-- An idle block, `P_M = 64`, right after reset. -/
def s64 : State := State.resetOf p64

/-- An idle block, `P_M = 128`, right after reset. -/
def s128 : State := State.resetOf paramsDefault

/-- The next state, where there is one. -/
def answer (o : Host.Outcome State Fault Refusal) : Option State :=
  match o with
  | .next t => some t
  | .fault _ => none
  | .refused _ => none

/-- `s` after the acceptance of a command, not completed. -/
def accepted (i : Instr) (s : State) : State := (answer (exec i s)).getD s

/-- A busy block: FOLD accepted. -/
def busy64 : State := accepted .fold s64

def busy128 : State := accepted .fold s128

/-- A block with `ERR = 1`, `ECODE = 1`, `DONE = 1`: a reserved command presented. -/
def erred64 : State := s64.acceptIllegal .illop

/-- `STATUS` right after one write of a register of a reset block. -/
def statusAfter (p : Params) (r : Reg) (v : Word) (s : State) : Option Word :=
  (answer (busWrite .word (regAddr p r) v s)).map fun t => statusWord t.status

/-- The word a read returns. -/
def readOf (off : Nat) (s : State) : Option Word :=
  (answer (busRead .word (s.params.base + off) s)).bind fun t => t.reads.head?

/-- The padded block of "abc" (spec 95 §1.2). -/
def abcBlock : List Word := 0x61626380 :: (List.replicate 14 0 ++ [0x00000018])

/-- Its 64 words of expansion and 64 combination words, as 95 §1.3 computes them from `abcBlock`. -/
def abcW : List Word := expandWords abcBlock

/-- The digest of "abc" (95 §1.2). -/
def abcDigest : Chain :=
  ⟨0x66C7F0F4, 0x62EEEDD9, 0xD1F2D46B, 0xDC10E4E2, 0x4167C487, 0x5CF2F7A2, 0x297DA02B, 0x8F4BA8E0⟩

/-- `ACC[k] = 9E3779B1 (k+1)` (95 §4, P4). -/
def p4Words : List Word := (List.range 32).map fun k => BitVec.ofNat 32 (0x9E3779B1 * (k + 1))

/-! ## Well-formedness: the ill-formed commands are refused -/

theorem test_wf_refuses_cmpacc1_on_m64 : (Instr.cmpacc 1).wf .m64 = false := by decide

theorem test_wf_accepts_cmpacc1_on_m128 : (Instr.cmpacc 1).wf .m128 = true := by decide

/-! ## Decoding: the words written out from the fields of R91 and the map of R92, and the reserved words of 95 §2.7 -/

theorem test_decode_nop : decode .m64 0b00000000000000000000000000000000 = .ok .nop := by decide

theorem test_decode_initv : decode .m64 0b00000000000000000000000000000001 = .ok .initv := by decide

theorem test_decode_clracc : decode .m64 0b00000000000000000000000000000010 = .ok .clracc := by decide

theorem test_decode_fold : decode .m64 0b00000000000000000000000000000011 = .ok .fold := by decide

theorem test_decode_cmpdin : decode .m64 0b00000000000000000000000000000100 = .ok .cmpdin := by decide

theorem test_decode_cmpacc0 : decode .m64 0b00000000000000000000000000000101 = .ok (.cmpacc 0) := by decide

theorem test_decode_cmpacc1 : decode .m128 0b00000000000000000000000000010101 = .ok (.cmpacc 1) := by decide

theorem test_decode_final : decode .m64 0b00000000000000000000000000000110 = .ok .final := by decide

theorem test_decode_absent_chunk : decode .m64 0x00000015 = .error .badK := by decide

theorem test_decode_reserved_operation : decode .m128 0x0000000F = .error .illop := by decide

theorem test_decode_k_outside_cmpacc : decode .m128 0x00000013 = .error .illop := by decide

theorem test_decode_k_on_final : decode .m128 0x00000016 = .error .illop := by decide

theorem test_decode_reserved_bit5 : decode .m128 0x00000020 = .error .illop := by decide

theorem test_decode_reserved_bit31 : decode .m128 0x80000000 = .error .illop := by decide

theorem test_decodeTableWord_cmpacc : decodeTableWord 32 0x15 = some (.cmpacc 1) := by decide

/-! ## The functions (95 §1.3, §2.1 to §2.3) -/

theorem test_rotl : rotl 0x12345678 7 = 0x1A2B3C09 ∧ rotl 0x12345678 32 = 0x12345678 := by decide

theorem test_p0 : p0 0x12345678 = 0xD6688234 ∧ p0 1 = 0x00020201 := by decide

theorem test_p1 : p1 0x12345678 = 0x05014549 ∧ p1 1 = 0x00808001 := by decide

theorem test_ff : ff 15 0xF0F0F0F0 0xCCCCCCCC 0xAAAAAAAA = 0x96969696 ∧
    ff 16 0xF0F0F0F0 0xCCCCCCCC 0xAAAAAAAA = 0xE8E8E8E8 := by decide

theorem test_gg : gg 15 0xF0F0F0F0 0xCCCCCCCC 0xAAAAAAAA = 0x96969696 ∧
    gg 16 0xF0F0F0F0 0xCCCCCCCC 0xAAAAAAAA = 0xCACACACA := by decide

theorem test_round_constants : rotl (tConst p64 15) 15 = 0x228CBCE6 ∧ rotl (tConst p64 16) 16 = 0x9D8A7A87 ∧
    rotl (tConst p64 32) (32 % 32) = 0x7A879D8A ∧ rotl (tConst p64 63) (63 % 32) = 0x3D43CEC5 := by decide

theorem test_expansion : abcW.getD 16 0 = 0x9092E200 ∧ abcW.getD 19 0 = 0x719C70ED ∧ abcW.getD 67 0 = 0xB99C0545 := by
  decide +kernel

theorem test_combination : (combineWords abcW).getD 15 0 = 0x719C70F5 ∧ (combineWords abcW).getD 63 0 = 0x49E260D5 := by
  decide +kernel

theorem test_round_zero : roundStep p64 0 0x61626380 0x61626380 (regsOfChain ivDefault) =
    ⟨0xB9EDC12B, 0x7380166F, 0x29657292, 0x172442D7, 0xB2AD29F4, 0xA96F30BC, 0xC550B189, 0xE38DEE4D⟩ := by decide

theorem test_byte_order : packWords .m64 [0x00, 0x01, 0x02, 0x03, 0x80] =
    0x00010203 :: 0x80000000 :: List.replicate 14 0 := by decide

/-! ## The commands (95 §1.2, §2.4 to §2.6, §4) -/

theorem test_nop_accepted : statusWord (accepted .nop s64).status = 0x00000001 := by decide

theorem test_nop_completed : statusWord (runCommand .nop s64).status = 0x00000002 ∧
    (runCommand .nop s64).v = ivDefault := by decide

theorem test_initv : (runCommand .initv { s64 with v := ⟨0, 1, 2, 3, 4, 5, 6, 7⟩ }).v =
    ⟨0x7380166F, 0x4914B2B9, 0x172442D7, 0xDA8A0600, 0xA96F30BC, 0x163138AA, 0xE38DEE4D, 0xB0FB0E4E⟩ := by decide

theorem test_clracc : (runCommand .clracc { s64 with acc := 0xDEADBEEF :: List.replicate 15 7 }).acc =
    List.replicate 16 0 := by decide

theorem test_fold : (runCommand .fold
    { s64 with acc := List.replicate 16 0xFFFFFFFF, din := List.replicate 16 0x0F0F0F0F }).acc =
    List.replicate 16 0xF0F0F0F0 := by decide

theorem test_fold_reaches_word_31 : ((runCommand .fold
    { s128 with din := List.replicate 31 0 ++ [0x80000000] }).acc).getD 31 0 = 0x80000000 := by decide

theorem test_cmpdin_abc : (runCommand .cmpdin { s64 with din := abcBlock }).v = abcDigest := by decide +kernel

theorem test_cmpacc0 : (runCommand (.cmpacc 0) { s128 with acc := p4Words }).v =
    ⟨0x27B2B6E2, 0xCD8CF627, 0x6593C9B9, 0x4874F49F, 0x771755C4, 0x74593BAF, 0x5AC29502, 0x17BCB44B⟩ := by
  decide +kernel

theorem test_cmpacc1 : (runCommand (.cmpacc 1) { s128 with
      acc := p4Words
      v := ⟨0x27B2B6E2, 0xCD8CF627, 0x6593C9B9, 0x4874F49F, 0x771755C4, 0x74593BAF, 0x5AC29502, 0x17BCB44B⟩ }).v =
    ⟨0x55C982C3, 0x41F3AB9C, 0x0D63EC06, 0x746F5072, 0x14003370, 0x43093644, 0xCCF9EF36, 0x7CDD1F3E⟩ := by
  decide +kernel

theorem test_final_m64 : (runCommand .final { s64 with acc := (List.range 16).map (BitVec.ofNat 32) }).v =
    ⟨0x700F7959, 0x2C93F8D3, 0x44674846, 0xE62D43C7, 0xEB27DC21, 0xF1412038, 0xDEB409AA, 0x8D3CB783⟩ := by
  decide +kernel

theorem test_final_m128 :
    (runCommand .final { s128 with v := abcDigest, acc := (List.range 32).map (BitVec.ofNat 32) }).v =
      ⟨0xA35631D2, 0xEF52E0BB, 0x8AA24A39, 0xDB9305EC, 0x7A03C365, 0xAA854500, 0xE717DC7C, 0x3696CE29⟩ := by
  decide +kernel

/-! ## The window, errors and the interrupt (95 §2.7, §2.8) -/

theorem test_illop_status : statusAfter p64 .cmd 0x00000007 s64 = some 0x00000016 := by decide

theorem test_badK_status : statusAfter p64 .cmd 0x00000015 s64 = some 0x00000026 ∧
    statusAfter paramsDefault .cmd 0x00000015 s128 = some 0x00000001 := by decide

theorem test_first_error_kept : statusAfter p64 .cmd 0x00000015 erred64 = some 0x00000016 := by decide

theorem test_busywr_din : statusAfter p64 (.din 0) 0x11111111 busy64 = some 0x00000035 := by decide

theorem test_busywr_kept_at_completion : statusWord (busy64.raise .busyWr).complete.status = 0x00000036 := by decide

theorem test_clrerr_keeps_done : statusAfter p64 .status 0x00000004 erred64 = some 0x00000002 := by decide

theorem test_clear_both : statusAfter p64 .status 0x00000006 erred64 = some 0x00000000 := by decide

theorem test_ctrl_write : ((answer (busWrite .word 0x000 0xFFFFFFFD s64)).bind (readOf 0x000)) = some 0x00000001 := by
  decide

theorem test_srst_aborts : (answer (busWrite .word 0x000 0x00000003 busy64)).map
    (fun t => (ctrlWord t.ie, statusWord t.status, t.running)) = some (0, 0, none) := by decide

theorem test_irq_at_completion : ({ busy64 with ie := true }.irq, { busy64 with ie := true }.complete.irq) =
    (false, true) := by decide

theorem test_cfg_and_cmd_reads : readOf 0x00C s64 = some 0x00000040 ∧ readOf 0x00C s128 = some 0x00000080 ∧
    readOf 0x008 s64 = some 0 := by decide

theorem test_reserved_write : (answer (busWrite .word 0x30C 0xABCDEF01 s64)) = some s64 ∧ readOf 0x30C s64 = some 0 := by
  decide

theorem test_absent_din16 : (answer (busWrite .word 0x140 0x12345678 s64)) = some s64 ∧ readOf 0x140 s64 = some 0 := by
  decide

theorem test_acc0_is_read_only : (answer (busWrite .word 0x200 0x12345678 s64)) = some s64 := by decide

theorem test_v7_at_03C : (answer (busWrite .word 0x03C 0x00000005 s64)).map (·.v.v7) = some 0x00000005 := by decide

theorem test_step_of_the_fetch_word :
    (answer (step (State.reset.withFetchWord 32 0x00000006))).map (fun t => (statusWord t.status, t.hostOps)) =
      some (0x00000001, []) := by decide +kernel

/-! ## Witnesses -/

theorem witness_word_indices : 0 < AccLen.m64.words ∧ 15 < AccLen.m64.words ∧ ¬ 16 < AccLen.m64.words ∧
    31 < AccLen.m128.words ∧ ¬ 32 < AccLen.m128.words := by decide

theorem witness_BothResetsHaveTheSameEffect :
    (0x00000002 : Word).getLsbD 1 = true ∧ (0xFFFFFFFF : Word).getLsbD 1 = true := by decide

theorem witness_CtrlRegisterHoldsOnlyIe : (0x00000003 : Word).getLsbD 1 = true ∧
    (0xFFFFFFFD : Word).getLsbD 1 = false ∧ (0xFFFFFFFD : Word).getLsbD 0 = true := by decide

/-- An idle and a busy block, for every statement with a clause for each. -/
theorem witness_idle_and_busy : s64.status.busy = false ∧ s128.status.busy = false ∧ busy64.status.busy = true ∧
    busy128.status.busy = true ∧ busy64.params.accLen = .m64 ∧ busy128.params.accLen = .m128 := by decide

theorem witness_ChainingStateIsHostReadableAndWritable :
    s64.status.busy = false ∧ busy64.status.busy = true ∧ (0 : Fin 8) ≠ (7 : Fin 8) := by decide

theorem witness_AccumulatorIsHostReadOnly :
    0 < s64.params.accLen.words ∧ 15 < s64.params.accLen.words ∧ 31 < busy128.params.accLen.words ∧
      s64.status.busy = false ∧ busy128.status.busy = true := by decide

theorem witness_InputBufferIsReadAtAnyTimeAndWrittenIdle :
    15 < s64.params.accLen.words ∧ s64.din.length = s64.params.accLen.words ∧ s64.status.busy = false ∧
      31 < busy128.params.accLen.words ∧ busy128.din.length = busy128.params.accLen.words := by decide

theorem witness_BytePackingIsBigEndian :
    (List.replicate 64 (0x80 : Byte)).length = AccLen.m64.bytes ∧
      (List.replicate 128 (0x80 : Byte)).length = AccLen.m128.bytes ∧ 15 < AccLen.m64.words ∧
      31 < AccLen.m128.words := by decide

theorem witness_WindowMapIsTheSpecs :
    (0x010 % 4 = 0 ∧ 0x010 ≤ 0x010 ∧ 0x01C < 0x020) ∧ (0x040 % 4 = 0 ∧ 0x040 ≤ 0x040 ∧ 0x0FC < 0x100) ∧
      (0x140 % 4 = 0 ∧ 0x100 + 4 * AccLen.m64.words ≤ 0x140 ∧ 0x1FC < 0x200) ∧
      (0x180 % 4 = 0 ∧ 0x100 + 4 * AccLen.m128.words ≤ 0x180) ∧
      (0x240 % 4 = 0 ∧ 0x200 + 4 * AccLen.m64.words ≤ 0x240 ∧ 0xFFC < 0x1000) ∧
      (0x280 % 4 = 0 ∧ 0x200 + 4 * AccLen.m128.words ≤ 0x280) := by decide

/-- The last register before each reserved range, and the first and last offset of the range. -/
theorem witness_window_boundaries :
    regAt .m64 0x00C = .cfg ∧ regAt .m64 0x010 = .reserved 0x010 ∧ regAt .m64 0x01C = .reserved 0x01C ∧
      regAt .m64 0x020 = .v 0 ∧ regAt .m64 0x03C = .v 7 ∧ regAt .m64 0x040 = .reserved 0x040 ∧
      regAt .m64 0x0FC = .reserved 0x0FC ∧ regAt .m64 0x13C = .din 15 ∧ regAt .m64 0x140 = .reserved 0x140 ∧
      regAt .m128 0x140 = .din 16 ∧ regAt .m128 0x17C = .din 31 ∧ regAt .m128 0x180 = .reserved 0x180 ∧
      regAt .m64 0x1FC = .reserved 0x1FC ∧ regAt .m64 0x23C = .acc 15 ∧ regAt .m64 0x240 = .reserved 0x240 ∧
      regAt .m128 0x27C = .acc 31 ∧ regAt .m128 0x280 = .reserved 0x280 ∧ regAt .m64 0xFFC = .reserved 0xFFC := by
  decide

theorem witness_ReservedOffsetsReadZeroAndIgnoreWrites :
    0xFFC < 0x1000 ∧ 0xFFC % 4 = 0 ∧ regAt s64.params.accLen 0xFFC = .reserved 0xFFC ∧
      regAt busy64.params.accLen 0x010 = .reserved 0x010 ∧ regAt s64.params.accLen 0x00C = .cfg ∧
      regAt s64.params.accLen 0x200 = .acc 0 := by decide

theorem witness_OnlyAlignedWordAccessesAreDefined :
    let p := pHigh
    (p.base ≤ 0x1000 ∧ 0x1FFF < p.base + 4096 ∧ AccessSize.byte ≠ .word ∧ AccessSize.half ≠ .word) ∧
      (0x1FFF - p.base) % 4 ≠ 0 ∧ (0x1001 - p.base) % 4 ≠ 0 ∧ (0x1002 - p.base) % 4 ≠ 0 ∧
      (0x1000 - p.base) % 4 = 0 ∧ (0x1FFC - p.base) % 4 = 0 := by decide

theorem witness_AccessOutsideTheWindowFaults :
    0x0FFF < pHigh.base ∧ pHigh.base + 4096 ≤ 0x2000 := by decide

theorem witness_ReadsHaveNoSideEffect :
    DefinedAccess s64.params .word 0 ∧ DefinedAccess s64.params .word 0xFFC ∧
      DefinedAccess busy64.params .word 0x020 ∧ s64.status.busy = false := by unfold DefinedAccess; decide

theorem witness_BusyWritesAreDroppedWithBusywr :
    busy64.status.busy = true ∧ busy128.status.busy = true ∧
      (∀ off ∈ [0x008, 0x020, 0x03C, 0x100, 0x13C], off < 0x1000 ∧ off % 4 = 0 ∧
        (off = 0x008 ∨ (0x020 ≤ off ∧ off < 0x040) ∨ (0x100 ≤ off ∧ off < 0x100 + busy64.params.accLen.bytes))) ∧
      (0x17C < 0x100 + busy128.params.accLen.bytes) ∧
      (∀ off ∈ [0x000, 0x004, 0x00C, 0x01C, 0x040, 0x0FC, 0x140, 0x200, 0xFFC], off < 0x1000 ∧ off % 4 = 0 ∧
        ¬ (off = 0x008 ∨ (0x020 ≤ off ∧ off < 0x040) ∨
          (0x100 ≤ off ∧ off < 0x100 + busy64.params.accLen.bytes))) := by decide

/-- A chunk of 64 bytes staged into an idle block, with a FOLD behind it. -/
def staging : State :=
  { s64 with hostOps := asmLdchunk s64.params (List.replicate 64 0x5A) ++ [asmCmd s64.params .fold] }

theorem witness_StagingAChunkFillsTheInputBuffer :
    staging.status.busy = false ∧ staging.running = none ∧ staging.turns = [] ∧
      staging.din.length = staging.params.accLen.words ∧
      staging.hostOps = asmLdchunk staging.params (List.replicate 64 0x5A) ++ [asmCmd staging.params .fold] := by decide

theorem witness_WaitEndsWhenNotBusy :
    let idle : State := { s64 with hostOps := [asmWait s64.params, asmRd s64.params .cfg] }
    let busy : State := { busy64 with hostOps := [asmWait busy64.params], turns := [.host] }
    nextTurn idle = .host ∧ idle.hostOps = asmWait idle.params :: [asmRd idle.params .cfg] ∧
      idle.status.busy = false ∧ nextTurn busy = .host ∧ busy.hostOps = asmWait busy.params :: [] ∧
      busy.status.busy = true := by decide

theorem witness_LegalWordsAreExactlyTheEncodings :
    (Instr.cmpacc 1).wf .m128 = true ∧ decode .m128 0x15 = .ok (.cmpacc 1) ∧ encode (.cmpacc 1) = 0x15 := by decide

/-- A word for each test of R94, reserved bits at both ends, the operations on both sides of the reserved range. -/
theorem witness_DecoderAppliesTheTestsInOrder :
    (0x00000020 : Word).extractLsb' 5 27 ≠ 0 ∧ (0x80000000 : Word).extractLsb' 5 27 ≠ 0 ∧
      7 ≤ ((0x00000007 : Word).extractLsb' 0 4).toNat ∧ ¬ 7 ≤ ((0x00000006 : Word).extractLsb' 0 4).toNat ∧
      ((0x00000016 : Word).getLsbD 4 = true ∧ (0x00000016 : Word).extractLsb' 0 4 ≠ 5) ∧
      ((0x00000015 : Word).extractLsb' 0 4 = 5 ∧ (0x00000015 : Word).getLsbD 4 = true) ∧
      (0x00000005 : Word).getLsbD 4 = false := by decide

theorem witness_ReservedWordsRaiseIllop :
    s64.status.busy = false ∧ (0x00000020 : Word).extractLsb' 5 27 ≠ 0 ∧
      7 ≤ ((0x0000000F : Word).extractLsb' 0 4).toNat ∧
      ((0x00000010 : Word).getLsbD 4 = true ∧ (0x00000010 : Word).extractLsb' 0 4 ≠ 5) := by decide

theorem witness_AbsentChunkRaisesBadK : s64.status.busy = false ∧ s64.params.accLen = .m64 ∧
    s128.status.busy = false ∧ s128.params.accLen = .m128 := by decide

theorem witness_CmdWritePresentsTheWord :
    busy64.status.busy = true ∧ s64.status.busy = false ∧ decode s64.params.accLen 0x00000007 = .error .illop ∧
      decode s64.params.accLen 0x00000015 = .error .badK ∧ decode s64.params.accLen 0x00000003 = .ok .fold := by decide

theorem witness_StepRunsTheDecodedCommand :
    let s : State := { s64 with hostOps := [asmCmdw s64.params 0x00000003, asmWait s64.params] }
    nextTurn s = .host ∧ s.hostOps = .wr .word (regAddr s.params .cmd) 0x00000003 :: [asmWait s64.params] ∧
      decode s.params.accLen 0x00000003 = .ok .fold ∧
      decode State.reset.params.accLen (tableWord 32 0x15) = .ok (.cmpacc 1) := by decide

theorem witness_PresentingACommandChangesOnlyStatus :
    (∃ t, exec .fold s64 = .next t) ∧ (∃ t, exec .fold busy64 = .next t) ∧ s64.status.busy = false ∧
      busy64.status.busy = true ∧ Instr.fold.wf s64.params.accLen = true ∧
      (∃ t, exec (.cmpacc 1) s64 = .next t) ∧ (Instr.cmpacc 1).wf s64.params.accLen = false :=
  ⟨⟨_, rfl⟩, ⟨_, rfl⟩, by decide, by decide, by decide, ⟨_, rfl⟩, by decide⟩

theorem witness_ResultsDoNotDependOnStatusOrCtrl :
    s64.status.busy = false ∧ erred64.status.busy = false ∧ erred64.status ≠ s64.status := by decide

/-- Idle blocks of both lengths, for the completion statements of NOP, INITV, CLRACC, FOLD, CMPDIN and FINAL. -/
theorem witness_commands_complete : s64.status.busy = false ∧ s128.status.busy = false ∧
    (∃ t, exec .nop s64 = .next t) ∧ (∃ t, exec .initv s64 = .next t) ∧ (∃ t, exec .clracc s64 = .next t) ∧
    (∃ t, exec .fold s64 = .next t) ∧ (∃ t, exec .cmpdin s64 = .next t) ∧ (∃ t, exec .final s128 = .next t) :=
  ⟨by decide, by decide, ⟨_, rfl⟩, ⟨_, rfl⟩, ⟨_, rfl⟩, ⟨_, rfl⟩, ⟨_, rfl⟩, ⟨_, rfl⟩⟩

theorem witness_CmpaccCompressesAChunkOfTheAccumulator :
    s64.status.busy = false ∧ (0 : BitVec 1).toNat < s64.params.accLen.chunks ∧
      ¬ (1 : BitVec 1).toNat < s64.params.accLen.chunks ∧ s64.params.accLen = .m64 ∧
      s128.status.busy = false ∧ (1 : BitVec 1).toNat < s128.params.accLen.chunks := by decide

theorem witness_BooleanFunctionsSwitchAtRoundSixteen : 0 < 32 ∧ 31 < 32 ∧ 0 ≤ 15 ∧ 15 ≤ 15 ∧ 16 ≤ 16 ∧ 16 ≤ 63 := by
  decide

theorem witness_ExpansionFollowsTheRecurrence : abcBlock.length = 16 ∧ (List.replicate 16 (0 : Word)).length = 16 ∧
    15 < 16 ∧ 16 ≤ 16 ∧ 67 < 68 ∧ 63 < 64 := by decide

theorem witness_ByteFoldIsWordFold : (List.replicate 64 (1 : Byte)).length = AccLen.m64.bytes ∧
    (List.replicate 128 (1 : Byte)).length = AccLen.m128.bytes ∧ 127 < AccLen.m128.bytes := by decide

theorem witness_FoldIsAssociativeCommutativeSelfInverse : s64.acc.length = AccLen.m64.words ∧
    s128.acc.length = AccLen.m128.words := by decide

/-- A Block of 4096 bytes is 64 fold chunks of 64 bytes and 32 of 128. -/
theorem witness_FoldingEveryChunkReducesTheBlock :
    s64.status.busy = false ∧ s64.acc = zeros s64.params.accLen ∧
      (List.replicate 4096 (0xFF : Byte)).length = 64 * s64.params.accLen.bytes ∧
      (List.replicate 4096 (0xFF : Byte)).length = 32 * s128.params.accLen.bytes ∧
      s128.status.busy = false ∧ s128.acc = zeros s128.params.accLen ∧
      63 < s64.params.accLen.bytes ∧ 127 < s128.params.accLen.bytes := by
  simp only [List.length_replicate]
  decide

theorem witness_FoldOrderDoesNotMatter :
    s64.status.busy = false ∧ [[1], [2], [3]].Perm ([[3], [1], [2]] : List (List Byte)) := by decide

theorem witness_EvenlyManyEqualChunksReduceToZero : (List.replicate 64 (0x5A : Byte)).length = AccLen.m64.bytes := by
  decide

theorem witness_ShortDigestIsTheFirstHalf : 7 < 8 ∧ 3 < 4 := by decide

theorem witness_FinalDependsOnlyOnTheAccumulator :
    let t : State := { s64 with v := abcDigest, din := abcBlock, ie := true }
    s64.status.busy = false ∧ t.status.busy = false ∧ s64.params = t.params ∧ s64.acc = t.acc ∧ s64.v ≠ t.v := by decide

theorem witness_ManualFinalizationEqualsFinal : s64.status.busy = false ∧ s64.params.accLen = .m64 ∧
    s128.status.busy = false ∧ s128.params.accLen = .m128 := by decide

theorem witness_FoldingABlockAndFinalGiveItsDigest :
    s128.status.busy = false ∧ s128.acc = zeros s128.params.accLen ∧
      (List.replicate 4096 (0x11 : Byte)).length = blockBytes ∧ s64.status.busy = false ∧
      s64.acc = zeros s64.params.accLen := by
  simp only [List.length_replicate]
  decide

/-- The three ways a recorded error goes through a step: kept, cleared by its bit, cleared by a reset. -/
theorem witness_FirstErrorIsKeptUntilCleared :
    erred64.status.err = true ∧ (∃ t, step erred64 = .next t ∧ t.status.err = true) ∧
      (∃ t, step { erred64 with hostOps := [asmClrerr erred64.params] } = .next t ∧ t.status.err = false) ∧
      (∃ t, step { erred64 with turns := [.reset] } = .next t ∧ t.status.err = false) :=
  ⟨by decide, ⟨_, rfl, by decide⟩, ⟨_, rfl, by decide⟩, ⟨_, rfl, by decide⟩⟩

theorem witness_InterruptIsIeAndDone : busy64.running.isSome = true ∧ (0x00000002 : Word).getLsbD 1 = true ∧
    (0x00000001 : Word).getLsbD 1 = false ∧ (0x00000000 : Word).getLsbD 1 = false := by decide

theorem staging_safe : staging.Safe := by
  intro op h
  rcases List.mem_append.1 h with h | h
  · obtain ⟨k, hk, rfl⟩ := List.mem_map.1 h
    have hk : k < 16 := by
      have h := List.mem_range.1 hk
      rwa [length_packWords] at h
    refine ⟨rfl, Nat.zero_le _, ?_, ?_⟩ <;>
      simp only [regAddr, regOffset, staging, s64, State.resetOf, p64, paramsDefault] <;> omega
  · cases List.mem_singleton.1 h
    exact ⟨rfl, by decide, by decide, by decide⟩

theorem witness_DefinedAccessesNeverStop : staging.Safe ∧ staging.hostOps.length = 17 :=
  ⟨staging_safe, by decide⟩

/-- FINAL accepted, both chunks latched; a host that polls; first a round, then the host, then the completion. -/
def executing128 : State :=
  { accepted .final s128 with hostOps := [asmWait paramsDefault], turns := [.round, .host, .complete] }

theorem executing128_wf : executing128.Wf := by
  refine ⟨rfl, rfl, rfl, by unfold Status.Wf; decide, ?_⟩
  rintro r ⟨⟩
  refine ⟨rfl, coreLoad_wf _ _ _ _ (by simp) (by decide) (by decide), rfl⟩

theorem executing128_latched : executing128.Latched := by
  refine ⟨rfl, ?_⟩
  rintro r ⟨⟩
  rfl

theorem witness_EveryStepKeepsTheStateWellFormed : executing128.Wf ∧ ∃ t, step executing128 = .next t :=
  ⟨executing128_wf, ⟨_, rfl⟩⟩

theorem witness_EveryStepKeepsTheLatchedResult : executing128.Latched ∧ ∃ t, step executing128 = .next t :=
  ⟨executing128_latched, ⟨_, rfl⟩⟩

theorem witness_NoStepChangesTheParameters : ∃ t, step executing128 = .next t := ⟨_, rfl⟩

/-- An executing command through a round, a host move, its completion and a reset. -/
theorem witness_ExecutingCommandIsNotReplaced :
    executing128.status.busy = true ∧ executing128.running.isSome = true ∧ (∃ t, step executing128 = .next t) ∧
      (∃ t, step { executing128 with turns := [.host] } = .next t) ∧
      (∃ t, step { executing128 with turns := [.complete] } = .next t) ∧
      (∃ t, step { executing128 with turns := [.reset] } = .next t) :=
  ⟨rfl, rfl, ⟨_, rfl⟩, ⟨_, rfl⟩, ⟨_, rfl⟩, ⟨_, rfl⟩⟩

theorem witness_CompletionCommitsAndExecutionsEnd :
    executing128.running.isSome = true ∧ nextTurn { executing128 with turns := [.complete] } = .complete ∧
      nextTurn { executing128 with turns := [] } = .complete ∧
      ∃ t, Host.Core.run Sys2Proof.core (executing128.turns.length + 1) executing128 = .next t :=
  ⟨rfl, rfl, rfl, ⟨_, rfl⟩⟩

end Sys2Proof.Tests
end

/-! PROOFS. State (spec 10_state.md): a read and a write of `CTRL`, `STATUS`, `CMD` and `CFG` (R28 to R34), and the
big-endian packing of byte sequences into the words of `ACC` and `DIN` (R25, R27). -/

namespace Sys2Proof.Machine

/-! ### A field inside a word

`statusWord` and `be32` both place fields side by side with `<<<` and `|||`; these lemmas read one of them back. -/

theorem getLsbD_field {w : Nat} (x : BitVec w) (n i : Nat) (hw : n + w ≤ 32) :
    (x.setWidth 32 <<< n).getLsbD i = (decide (n ≤ i) && x.getLsbD (i - n)) := by
  rw [BitVec.getLsbD_shiftLeft, BitVec.getLsbD_setWidth]
  by_cases hi : i < 32
  · by_cases hn : n ≤ i <;> simp [hi, hn, show i - n < 32 by omega]
  · simp [BitVec.getLsbD_of_ge x (i - n) (by omega)]

theorem extractLsb'_field {w : Nat} (x : BitVec w) (n : Nat) (hw : n + w ≤ 32) :
    (x.setWidth 32 <<< n).extractLsb' n w = x := by
  apply BitVec.eq_of_getLsbD_eq
  intro i hi
  simp [getLsbD_field x n (n + i) hw, hi]

theorem extractLsb'_beside_field {w : Nat} (x : BitVec w) (n start len : Nat) (hw : n + w ≤ 32)
    (h : start + len ≤ n ∨ n + w ≤ start) : (x.setWidth 32 <<< n).extractLsb' start len = 0#len := by
  apply BitVec.eq_of_getLsbD_eq
  intro i hi
  rw [BitVec.getLsbD_extractLsb', getLsbD_field x n _ hw, BitVec.getLsbD_zero]
  rcases h with h | h
  · simp [show ¬ n ≤ start + i by omega]
  · simp [BitVec.getLsbD_of_ge x (start + i - n) (by omega)]

/-! ### The words a read of `CTRL`, `STATUS` and `CFG` returns -/

theorem ctrlWord_eq_ite (ie : Bool) : ctrlWord ie = if ie then 1 else 0 := by
  cases ie <;> rfl

theorem statusWord_eq_fields (st : Status) :
    statusWord st = st.ecode.setWidth 32 <<< 4 ||| (BitVec.ofBool st.err).setWidth 32 <<< 2 |||
      (BitVec.ofBool st.done).setWidth 32 <<< 1 ||| (BitVec.ofBool st.busy).setWidth 32 <<< 0 := by
  simp only [statusWord, bitWord, BitVec.shiftLeft_zero]

theorem getLsbD_statusWord (st : Status) (i : Nat) :
    (statusWord st).getLsbD i =
      (decide (4 ≤ i) && st.ecode.getLsbD (i - 4) || decide (2 ≤ i) && (BitVec.ofBool st.err).getLsbD (i - 2) ||
        decide (1 ≤ i) && (BitVec.ofBool st.done).getLsbD (i - 1) ||
        decide (0 ≤ i) && (BitVec.ofBool st.busy).getLsbD (i - 0)) := by
  simp (disch := omega) only [statusWord_eq_fields, BitVec.getLsbD_or, getLsbD_field]

theorem statusWord_bit_busy (st : Status) : (statusWord st).getLsbD 0 = st.busy := by
  rw [getLsbD_statusWord]
  simp

theorem statusWord_bit_done (st : Status) : (statusWord st).getLsbD 1 = st.done := by
  rw [getLsbD_statusWord]
  simp

theorem statusWord_bit_err (st : Status) : (statusWord st).getLsbD 2 = st.err := by
  rw [getLsbD_statusWord]
  simp

theorem statusWord_bit_reserved (st : Status) : (statusWord st).getLsbD 3 = false := by
  rw [getLsbD_statusWord]
  simp

theorem statusWord_bits_ecode (st : Status) : (statusWord st).extractLsb' 4 3 = st.ecode := by
  simp (disch := omega) only [statusWord_eq_fields, BitVec.extractLsb'_or, extractLsb'_field,
    extractLsb'_beside_field, BitVec.or_zero]

theorem statusWord_bits_unused (st : Status) : (statusWord st).extractLsb' 7 25 = 0 := by
  simp (disch := omega) only [statusWord_eq_fields, BitVec.extractLsb'_or, extractLsb'_beside_field, BitVec.or_zero]
  rfl

/-! ### What a `BusRead` and a `BusWrite` do -/

/-- R69: of a register whose value the spec fixes, the host reads that value. -/
theorem busRead_stored (s : State) (r : Reg) (hr : regExists s.params.accLen r) (hf : readIsFree r s = false) :
    busRead .word (regAddr s.params r) s = .next (s.withRead (storedValue r s)) := by
  rw [busRead_reg s r hr, readReg_stored r s hf]

theorem resetBlock_eq_afterReset (s : State) : s.resetBlock = s.afterReset := rfl

/-- R32: writing 1 clears, writing 0 keeps. -/
theorem statusWrite_eq_ite (v : Word) (st : Status) :
    statusWrite v st =
      { busy := st.busy
        done := if v.getLsbD 1 then false else st.done
        err := if v.getLsbD 2 then false else st.err
        ecode := if v.getLsbD 2 then 0 else st.ecode } := by
  have hclear (a b : Bool) : (a && !b) = if b then false else a := by cases b <;> simp
  simp only [statusWrite, hclear]

/-! ### The big-endian packing -/

theorem getD_bytesBe (w : Word) (b : Nat) (hb : b < 4) : (bytesBe w).getD b 0 = w.extractLsb' (24 - 8 * b) 8 := by
  interval_cases b <;> rfl

theorem bytesBe_be32 (b0 b1 b2 b3 : Byte) : bytesBe (be32 b0 b1 b2 b3) = [b0, b1, b2, b3] := by
  have h3 : b3.setWidth 32 = b3.setWidth 32 <<< 0 := (BitVec.shiftLeft_zero _).symm
  rw [be32, h3]
  simp (disch := omega) only [bytesBe, BitVec.extractLsb'_or, extractLsb'_field, extractLsb'_beside_field,
    BitVec.or_zero, BitVec.zero_or]

/-- Byte `b` of word `k` of a byte sequence is its byte `4k + b`. -/
theorem extractLsb'_wordAt (x : List Byte) (k b : Nat) (hb : b < 4) :
    (wordAt x k).extractLsb' (24 - 8 * b) 8 = x.getD (4 * k + b) 0 := by
  rw [← getD_bytesBe _ _ hb, wordAt, bytesBe_be32]
  interval_cases b <;> rfl

/-- Byte `4k + b` of the byte view is byte `b` of word `k` (R25, R27). -/
theorem getD_byteView (ws : List Word) (k b : Nat) (hb : b < 4) :
    (byteView ws).getD (4 * k + b) 0 = (ws.getD k 0).extractLsb' (24 - 8 * b) 8 := by
  induction ws generalizing k with
  | nil => simp [byteView]
  | cons w ws ih =>
    have hcons : byteView (w :: ws) = bytesBe w ++ byteView ws := rfl
    have hlen : (bytesBe w).length = 4 := rfl
    cases k with
    | zero =>
      rw [hcons, Nat.mul_zero, Nat.zero_add, List.getD_append _ _ _ _ (hlen ▸ hb), getD_bytesBe w b hb,
        List.getD_cons_zero]
    | succ k =>
      have hi : 4 * (k + 1) + b - 4 = 4 * k + b := by omega
      rw [hcons, List.getD_append_right _ _ _ _ (by omega), hlen, hi, ih, List.getD_cons_succ]

theorem getD_byteView_packWords (m : AccLen) (x : List Byte) (i : Nat) (hi : i < m.bytes) :
    (byteView (packWords m x)).getD i 0 = x.getD i 0 := by
  have hk : i / 4 < m.words := by have := four_words m; omega
  have hb : i % 4 < 4 := Nat.mod_lt _ (by decide)
  calc (byteView (packWords m x)).getD i 0
      = (byteView (packWords m x)).getD (4 * (i / 4) + i % 4) 0 := by rw [Nat.div_add_mod]
    _ = (wordAt x (i / 4)).extractLsb' (24 - 8 * (i % 4)) 8 := by
        rw [getD_byteView _ _ _ hb, getD_packWords m x _ hk]
    _ = x.getD i 0 := by rw [extractLsb'_wordAt x _ _ hb, Nat.div_add_mod]

/-- The packed words of a `P_M`-byte sequence read back as the sequence. -/
theorem byteView_packWords (m : AccLen) (x : List Byte) (hx : x.length = m.bytes) : byteView (packWords m x) = x := by
  have hlen : (byteView (packWords m x)).length = x.length := by
    rw [length_byteView, length_packWords, four_words, hx]
  apply List.ext_getElem hlen
  intro i h1 h2
  rw [← List.getD_eq_getElem _ 0 h1, ← List.getD_eq_getElem _ 0 h2, getD_byteView_packWords m x i (hx ▸ h2)]

theorem getD_chunk (q j : Nat) (ws : List Word) (hj : j < 16) : (chunk q ws).getD j 0 = ws.getD (16 * q + j) 0 := by
  simp [chunk, hj]

/-! ### The obligations -/

/-- Settles O5: `statusWrite` field by field, and the bits of `statusWord`. -/
theorem statusRegisterIsWriteOneToClear : Obligations.StatusRegisterIsWriteOneToClear := by
  intro s v
  constructor
  · rw [busWrite_status, statusWrite_eq_ite]
  · exact ⟨statusWord s.status, busRead_stored s .status trivial rfl, statusWord_bit_busy _, statusWord_bit_done _,
      statusWord_bit_err _, statusWord_bit_reserved _, statusWord_bits_ecode _, statusWord_bits_unused _⟩

/-- Settles O10: each packed word is `wordAt`, whose bytes are the sequence's; chunk `q` starts at word `16q`. -/
theorem bytePackingIsBigEndian : Obligations.BytePackingIsBigEndian := by
  intro m x hx
  refine ⟨length_packWords m x, ?_, byteView_packWords m x hx, ?_⟩
  · intro k b hk hb
    rw [getD_packWords m x k hk, extractLsb'_wordAt x k b hb]
  · intro q j hq hj
    have hk : 16 * q + j < m.words := by have := accLen_sizes m; omega
    have h4 : 4 * (16 * q + j) = 64 * q + 4 * j := by omega
    rw [getD_chunk q j _ hj, getD_packWords m x _ hk, wordAt, h4]

/-- Settles O4: the write splits on bit 1, the reset. -/
theorem ctrlRegisterHoldsOnlyIe : Obligations.CtrlRegisterHoldsOnlyIe := by
  intro s v
  constructor
  · rw [busWrite_ctrl, writeCtrl, resetBlock_eq_afterReset]
    split <;> rfl
  · rw [busRead_stored s .ctrl trivial rfl, storedValue, ctrlWord_eq_ite]

/-- Settles O6: no read of these two registers is free; `cfgWord` at either length. -/
theorem cmdReadsZeroAndCfgReadsTheLength : Obligations.CmdReadsZeroAndCfgReadsTheLength := by
  intro s v
  refine ⟨busRead_stored s .cmd trivial rfl, ?_, busWrite_cfg s v⟩
  rw [busRead_stored s .cfg trivial rfl, storedValue]
  cases s.params.accLen <;> rfl

end Sys2Proof.Machine

/-! PROOFS. Memory (spec 20_memory.md): reserved and read-only offsets (R62), the accesses the window refuses (R65), and
the digest as the host reads it out of `V` (R68). -/

namespace Sys2Proof.Machine

/-! ### The accesses the window refuses -/

/-- R65: inside the window the width is tested before the offset. -/
theorem withOffset_accessWidth (p : Params) (size : AccessSize) (addr : Nat)
    (k : Nat → Host.Outcome State Fault Refusal) (hlo : p.base ≤ addr) (hhi : addr < p.base + 4096)
    (hsize : size ≠ .word) : withOffset p size addr k = .refused .accessWidth := by
  unfold withOffset windowBytes
  rw [if_neg (by omega), if_pos hsize]

theorem withOffset_misaligned (p : Params) (addr : Nat) (k : Nat → Host.Outcome State Fault Refusal)
    (hlo : p.base ≤ addr) (hhi : addr < p.base + 4096) (h4 : (addr - p.base) % 4 ≠ 0) :
    withOffset p .word addr k = .refused .misaligned := by
  unfold withOffset windowBytes
  rw [if_neg (by omega), if_neg (by simp), if_pos h4]

/-! ### Accesses of no effect -/

/-- R62: the host reads 0 at a reserved offset, and nothing is drawn. -/
theorem readReg_reserved (off : Nat) (s : State) : readReg (.reserved off) s = s.withRead 0 :=
  readReg_stored (.reserved off) s rfl

/-- R62: whether the instance ignores a write to the register: it is read-only or reserved. -/
def Reg.IgnoresWrites (r : Reg) : Prop :=
  (∃ off, r = .reserved off) ∨ r = .cfg ∨ ∃ k, r = .acc k

theorem writeReg_ignored (r : Reg) (v : Word) (s : State) (h : r.IgnoresWrites) : writeReg r v s = .next s := by
  rcases h with ⟨off, rfl⟩ | rfl | ⟨k, rfl⟩ <;> rfl

/-! ### The digest readout -/

@[simp] theorem length_chainWords (c : Chain) : (chainWords c).length = 8 := rfl

/-- The 256-bit digest is the whole of `V`. -/
theorem readout_w256 (v : Chain) : readout .w256 v = byteView (chainWords v) :=
  List.take_of_length_le (by simp [digestBytes])

/-- The 128-bit digest is a prefix of the 256-bit one. -/
theorem readout_w128 (v : Chain) : readout .w128 v = (readout .w256 v).take 16 := by
  rw [readout_w256, readout, digestBytes]

theorem length_readout (w : DigestWidth) (v : Chain) : (readout w v).length = digestBytes w := by
  rw [readout, List.length_take, length_byteView, length_chainWords]
  cases w <;> rfl

/-! ### The obligations -/

/-- Settles O12: a reserved register's stored value is 0 and is never free; three kinds of register ignore a write. -/
theorem reservedOffsetsReadZeroAndIgnoreWrites : Obligations.ReservedOffsetsReadZeroAndIgnoreWrites := by
  intro s off v hoff h4
  constructor
  · intro hr
    rw [busRead_offset s off hoff h4, hr, readReg_reserved]
  · intro hr
    rw [busWrite_offset s off v hoff h4]
    exact writeReg_ignored _ v s (hr.imp_left fun h => ⟨off, h⟩)

/-- Settles O13: the tests of `withOffset` in their order, and every register answers a defined access. -/
theorem onlyAlignedWordAccessesAreDefined : Obligations.OnlyAlignedWordAccessesAreDefined := by
  intro s addr v hlo hhi
  refine ⟨?_, ?_, ?_⟩
  · intro size hsize
    exact ⟨withOffset_accessWidth _ size addr _ hlo hhi hsize, withOffset_accessWidth _ size addr _ hlo hhi hsize⟩
  · intro h4
    exact ⟨withOffset_misaligned _ addr _ hlo hhi h4, withOffset_misaligned _ addr _ hlo hhi h4⟩
  · intro h4
    have hd : DefinedAccess s.params .word addr := ⟨rfl, hlo, hhi, h4⟩
    obtain ⟨u, hu⟩ := writeReg_next (regAt s.params.accLen (addr - s.params.base)) v s
    exact ⟨_, u, withOffset_defined _ addr _ hd, (withOffset_defined _ addr _ hd).trans hu⟩

/-- Settles O47: the 256-bit readout is the byte view of all of `V`, whose bytes are big-endian in each word. -/
theorem shortDigestIsTheFirstHalf : Obligations.ShortDigestIsTheFirstHalf := by
  intro v
  refine ⟨length_readout .w256 v, length_readout .w128 v, readout_w128 v, ?_⟩
  intro i b _ hb
  rw [readout_w256, getD_byteView _ i b hb]

end Sys2Proof.Machine

/-! PROOFS. Encoding (spec 30_encoding.md): the decoder's answer from the fields of the word (R94), and the legal words
as numbers. -/

namespace Sys2Proof

/-! ### The decoder's answer, by the fields of the word -/

/-- R94: whether one of the first three tests, those that answer ILLOP, catches the word. -/
def HasIllopField (v : Word) : Prop := rsvdField v ≠ 0 ∨ 7 ≤ (opField v).toNat ∨ (kField v = 1 ∧ opField v ≠ 5)

/-- R94, R215: whether the word names a chunk the instance's accumulator does not have. -/
def NamesAbsentChunk (m : AccLen) (v : Word) : Prop := opField v = 5 ∧ kField v = 1 ∧ m = .m64

theorem decode_of_hasIllopField (m : AccLen) (v : Word) (h : HasIllopField v) : decode m v = .error .illop := by
  rcases decode_cases m v with ⟨hd, _⟩ | ⟨_, hr, hop, _, _⟩ | ⟨_, _, hr, hlt, hk, _, _, _⟩
  · exact hd
  · rcases h with h | h | h
    · exact absurd hr h
    · rw [hop] at h
      exact absurd h (by decide)
    · exact absurd hop h.2
  · rcases h with h | h | h
    · exact absurd hr h
    · omega
    · exact absurd h hk

theorem decode_of_namesAbsentChunk (m : AccLen) (v : Word) (h : ¬ HasIllopField v) (hc : NamesAbsentChunk m v) :
    decode m v = .error .badK := by
  obtain ⟨hop, hk, hm⟩ := hc
  rcases decode_cases m v with ⟨_, hi⟩ | ⟨hd, _⟩ | ⟨i, _, _, _, _, hiop, hik, hwf⟩
  · exact absurd hi h
  · exact hd
  · have hi : i = .cmpacc 1 := by
      have := operation_op i
      rw [hiop, hik, hop, hk] at this
      exact (Option.some.inj this).symm
    rw [hi, cmpacc_wf_iff] at hwf
    exact absurd ⟨rfl, hm⟩ hwf

/-- R94: a word that passes every test is the command with its `OP` and `K`. -/
theorem decode_of_passes (m : AccLen) (v : Word) (h : ¬ HasIllopField v) (hc : ¬ NamesAbsentChunk m v) :
    ∃ i, decode m v = .ok i ∧ i.op = opField v ∧ i.kBit = kField v := by
  rcases decode_cases m v with ⟨_, hi⟩ | ⟨_, _, hb⟩ | ⟨i, hd, _, _, _, hop, hk, _⟩
  · exact absurd hi h
  · exact absurd hb hc
  · exact ⟨i, hd, hop, hk⟩

theorem decode_isOk_iff (m : AccLen) (v : Word) :
    (∃ i, decode m v = .ok i) ↔ ¬ HasIllopField v ∧ ¬ NamesAbsentChunk m v := by
  constructor
  · rintro ⟨i, hi⟩
    have h : ¬ HasIllopField v := fun h => by
      rw [decode_of_hasIllopField m v h] at hi
      cases hi
    refine ⟨h, fun hc => ?_⟩
    rw [decode_of_namesAbsentChunk m v h hc] at hi
    cases hi
  · rintro ⟨h, hc⟩
    obtain ⟨i, hi, _⟩ := decode_of_passes m v h hc
    exact ⟨i, hi⟩

/-! ### The fields as arithmetic on the word -/

theorem rsvdField_eq_zero_iff (v : Word) : rsvdField v = 0 ↔ v.toNat < 32 := by
  have hlt := v.isLt
  rw [← BitVec.toNat_inj, rsvdField, BitVec.extractLsb'_toNat, Nat.shiftRight_eq_div_pow]
  change _ = 0 ↔ _
  omega

theorem toNat_opField (v : Word) : (opField v).toNat = v.toNat % 16 := by
  rw [opField, BitVec.extractLsb'_toNat, Nat.shiftRight_zero]

theorem opField_eq_five_iff (v : Word) : opField v = 5 ↔ v.toNat % 16 = 5 := by
  rw [← BitVec.toNat_inj, toNat_opField]
  rfl

theorem kField_eq_one_iff_toNat (v : Word) : kField v = 1 ↔ v.toNat / 16 % 2 = 1 := by
  rw [← BitVec.toNat_inj, kField, BitVec.extractLsb'_toNat, Nat.shiftRight_eq_div_pow]
  rfl

/-- R92: the seven operations with `K = 0`, and CMPACC with `K = 1`. -/
theorem not_hasIllopField_iff (v : Word) : ¬ HasIllopField v ↔ v.toNat ≤ 6 ∨ v.toNat = 0x15 := by
  rw [HasIllopField, ne_eq, ne_eq, rsvdField_eq_zero_iff, toNat_opField, kField_eq_one_iff_toNat, opField_eq_five_iff]
  omega

theorem decode_m128_isOk_iff (v : Word) : (∃ i, decode .m128 v = .ok i) ↔ v.toNat ≤ 6 ∨ v = 0x00000015 := by
  have hc : ¬ NamesAbsentChunk .m128 v := fun ⟨_, _, hm⟩ => nomatch hm
  rw [decode_isOk_iff, and_iff_left hc, not_hasIllopField_iff, ← BitVec.toNat_inj]
  rfl

theorem decode_m64_isOk_iff (v : Word) : (∃ i, decode .m64 v = .ok i) ↔ v.toNat ≤ 6 := by
  rw [decode_isOk_iff, not_hasIllopField_iff, NamesAbsentChunk, opField_eq_five_iff, kField_eq_one_iff_toNat,
    eq_self, and_true]
  omega

/-! ### The obligations -/

/-- Settles O20: `decode_cases` read branch by branch of the chain of tests; the legal words by arithmetic. -/
theorem decoderAppliesTheTestsInOrder : Obligations.DecoderAppliesTheTestsInOrder := by
  refine ⟨fun m v => ?_, decode_m128_isOk_iff, decode_m64_isOk_iff⟩
  simp only [← kField_eq_one_iff]
  split_ifs with hr hop hk hc
  · exact decode_of_hasIllopField m v (.inl hr)
  · exact decode_of_hasIllopField m v (.inr (.inl hop))
  · exact decode_of_hasIllopField m v (.inr (.inr hk))
  all_goals have h : ¬ HasIllopField v := not_or.2 ⟨hr, not_or.2 ⟨hop, hk⟩⟩
  · exact decode_of_namesAbsentChunk m v h hc
  · exact decode_of_passes m v h hc

end Sys2Proof

/-! PROOFS. Command (spec 40_command.md): what the decoder does with a write to `CMD` (R110 to R112), NOP (R118), and
that nothing replaces an executing command (R116). -/

namespace Sys2Proof.Machine

/-! ### The shared operations in the terms of the claims -/

theorem raise_eq_withError (s : State) (c : ErrCode) : s.raise c = s.withError (errBits c) := rfl

theorem acceptLegal_eq_executing (s : State) (r : Running) : s.acceptLegal r = s.executing r := rfl

theorem complete_of_running (s : State) (r : Running) (h : s.running = some r) :
    s.complete = s.finished (jobResult s.params r.job).1 (jobResult s.params r.job).2 := by
  rw [State.complete, h]
  rfl

/-! ### A command at the decoder -/

theorem wf_of_decode_ok (m : AccLen) (v : Word) (i : Instr) (h : decode m v = .ok i) : i.wf m = true := by
  rcases decode_cases m v with ⟨hd, _⟩ | ⟨hd, _⟩ | ⟨j, hd, _, _, _, _, _, hw⟩
  · cases h.symm.trans hd
  · cases h.symm.trans hd
  · cases h.symm.trans hd
    exact hw

theorem writeCmd_error (s : State) (w : Word) (c : ErrCode) (h : decode s.params.accLen w = .error c) :
    writeCmd w s = .next (s.present (.error c)) := by
  rw [writeCmd, h]

theorem writeCmd_ok (s : State) (w : Word) (i : Instr) (h : decode s.params.accLen w = .ok i) :
    writeCmd w s = exec i s := by
  rw [writeCmd, h]

/-- R112: a legal command is accepted by an idle block, with the result of R119 latched. -/
theorem exec_accepts (i : Instr) (s : State) (hb : s.status.busy = false) (hw : i.wf s.params.accLen = true) :
    ∃ r : Running, exec i s = .next (s.executing r) ∧ r.cmd = i ∧
      jobResult s.params r.job = effect s.params i s.v s.din s.acc := by
  rcases exec_presents i s with ⟨job, h, _, he, _⟩ | ⟨hn, _⟩
  · exact ⟨⟨i, job⟩, by rw [h, present_ok s _ hb, acceptLegal_eq_executing], rfl, he⟩
  · rw [hw] at hn
    cases hn

/-- R112, R114, R119: a legal command presented while idle goes on to commit its effect. -/
theorem completesWith_effect (i : Instr) (s : State) (hb : s.status.busy = false)
    (hw : i.wf s.params.accLen = true) :
    CompletesWith i s (effect s.params i s.v s.din s.acc).1 (effect s.params i s.v s.din s.acc).2 := by
  obtain ⟨r, hexec, hcmd, heff⟩ := exec_accepts i s hb hw
  refine ⟨r, hcmd, hexec, ?_⟩
  rw [complete_of_running _ r rfl, ← heff]
  rfl

/-- R110, R216: while busy the command does not matter. -/
theorem droppedWhileBusy (i : Instr) : DroppedWhileBusy i := by
  intro s hb
  rcases exec_presents i s with ⟨job, h, _⟩ | ⟨_, h⟩ <;> rw [h, present_busy s _ hb] <;> rfl

/-! ### The block while a command executes -/

/-- R113: the executing command, the operands of its effect and the registers it will commit to are in `t` as in `s`. -/
def State.SameExecution (s t : State) : Prop :=
  t.params = s.params ∧ t.running = s.running ∧ t.status.busy = s.status.busy ∧
    t.v = s.v ∧ t.acc = s.acc ∧ t.din = s.din

/-- R110, R115: a write to a register of the busy block leaves the execution as it is, unless it is the soft reset. -/
theorem writeReg_busy (r : Reg) (v : Word) (s t : State) (hb : s.status.busy = true)
    (h : writeReg r v s = .next t) : s.SameExecution t ∨ t = s.resetBlock := by
  have ht {u : State} (hu : writeReg r v s = .next u) : t = u := Host.Outcome.next.inj (h.symm.trans hu)
  have hidle {p : Prop} (hi : s.status.busy = false) : p := absurd (hb.symm.trans hi) (by decide)
  have hraise : s.SameExecution (s.raise .busyWr) := ⟨rfl, rfl, raiseError_busy _ _, rfl, rfl, rfl⟩
  rcases writeReg_cases r v s with hu | ⟨_, _, hu⟩ | ⟨_, _, hu⟩ | ⟨_, hu⟩ | ⟨_, _, hu⟩ | ⟨hi, _⟩ |
    ⟨hi, _⟩ | ⟨_, c, hu, _⟩
  · exact .inl (ht hu ▸ ⟨rfl, rfl, rfl, rfl, rfl, rfl⟩)
  · exact .inr (ht hu)
  · exact .inl (ht hu ▸ ⟨rfl, rfl, rfl, rfl, rfl, rfl⟩)
  · exact .inl (ht hu ▸ ⟨rfl, rfl, rfl, rfl, rfl, rfl⟩)
  · exact .inl (ht hu ▸ hraise)
  · exact hidle hi
  · exact hidle hi
  · rw [present_busy s c hb] at hu
    exact .inl (ht hu ▸ hraise)

theorem runHostOp_busy (op : HostOp) (s t : State) (hb : s.status.busy = true) (h : runHostOp op s = .next t) :
    s.SameExecution t ∨ t = s.resetBlock := by
  rcases runHostOp_cases op s t h with ⟨_, v, _, _, hw⟩ | ⟨_, _, _, _, rfl⟩
  · exact writeReg_busy _ v s t hb hw
  · exact .inl ⟨rfl, rfl, rfl, rfl, rfl, rfl⟩

/-- What R116 calls executing at `t`: the command `r` of `s`, with the same result to commit, and `V`, `ACC` and `DIN`
not changed yet. -/
def State.StillExecutes (s t : State) (r : Running) : Prop :=
  ∃ r' : Running, t.running = some r' ∧ r'.cmd = r.cmd ∧ t.status.busy = true ∧
    t.v = s.v ∧ t.acc = s.acc ∧ t.din = s.din ∧ jobResult t.params r'.job = jobResult s.params r.job

theorem State.SameExecution.stillExecutes {s t : State} {r : Running} (h : s.SameExecution t)
    (hb : s.status.busy = true) (hr : s.running = some r) : s.StillExecutes t r := by
  obtain ⟨hp, hrun, hbusy, hv, hacc, hdin⟩ := h
  exact ⟨r, hrun.trans hr, rfl, hbusy.trans hb, hv, hacc, hdin, by rw [hp]⟩

/-- R142: an internal round moves the job on, not what it comes to. -/
theorem roundTick_stillExecutes (s : State) (r : Running) (hb : s.status.busy = true) (hr : s.running = some r) :
    s.StillExecutes s.roundTick r := by
  rw [State.roundTick, hr]
  exact ⟨_, rfl, rfl, hb, rfl, rfl, rfl, jobResult_jobTick _ _⟩

/-! ### The obligations -/

/-- Settles O24: presenting at the decoder, busy, idle with an error, idle with a legal command. -/
theorem cmdWritePresentsTheWord : Obligations.CmdWritePresentsTheWord := by
  intro s w
  simp only [busWrite_cmd]
  refine ⟨?_, ?_, ?_⟩
  · intro hb
    obtain ⟨c, h, _⟩ := writeCmd_presents w s
    rw [h, present_busy s c hb, raise_eq_withError]
    rfl
  · intro hb c hd
    refine ⟨s.acceptIllegal c, by rw [writeCmd_error s w c hd, present_error s c hb], ?_⟩
    cases c <;> rfl
  · intro hb i hd
    rw [writeCmd_ok s w i hd]
    exact exec_accepts i s hb (wf_of_decode_ok _ w i hd)

/-- Settles O28: NOP's effect is `(V, ACC)`; its word with `K = 1` is caught by the test of `K` outside CMPACC. -/
theorem nopCompletesWithNoEffect : Obligations.NopCompletesWithNoEffect := by
  refine ⟨rfl, ?_, ?_, droppedWhileBusy .nop⟩
  · intro m
    have hk : kField 0x00000010 = 1 ∧ opField 0x00000010 ≠ 5 := by decide
    exact decode_of_hasIllopField m 0x00000010 (.inr (.inr hk))
  · intro s hb
    exact completesWith_effect .nop s hb rfl

/-- Settles O58: turn by turn. A host's operation keeps the command or is the soft reset, a round keeps it, and the
other two turns end it. -/
theorem executingCommandIsNotReplaced : Obligations.ExecutingCommandIsNotReplaced := by
  intro s t r hb hr h
  rcases step_cases s t h with ⟨_, _, rfl⟩ | ⟨_, op, rest, _, hop⟩ | ⟨_, rfl⟩ | ⟨_, rfl⟩ | ⟨_, rfl⟩
  · have hsame : s.SameExecution (takeTurn s) := ⟨rfl, rfl, rfl, rfl, rfl, rfl⟩
    exact .inl (hsame.stillExecutes hb hr)
  · rcases runHostOp_busy op { takeTurn s with hostOps := rest } t hb hop with hsame | rfl
    · exact .inl (State.SameExecution.stillExecutes (s := s) hsame hb hr)
    · exact .inr (.inr rfl)
  · exact .inl (roundTick_stillExecutes (takeTurn s) r hb hr)
  · exact .inr (.inl (complete_of_running (takeTurn s) r hr))
  · exact .inr (.inr rfl)

end Sys2Proof.Machine

/-! PROOFS. Compression (spec 41_compression.md): the functions of a round (R133 to R136), the message expansion (R137),
the round and CF (R138 to R140), and the commands INITV, CMPDIN and CMPACC (R143 to R145). -/

namespace Sys2Proof.Machine

/-! ### The Boolean functions -/

theorem ff_upto_fifteen (j : Nat) (x y z : Word) (hj : j ≤ 15) : ff j x y z = x ^^^ y ^^^ z := if_pos hj

theorem ff_from_sixteen (j : Nat) (x y z : Word) (hj : 16 ≤ j) :
    ff j x y z = (x &&& y) ||| (x &&& z) ||| (y &&& z) := if_neg (by omega)

theorem gg_upto_fifteen (j : Nat) (x y z : Word) (hj : j ≤ 15) : gg j x y z = x ^^^ y ^^^ z := if_pos hj

theorem gg_from_sixteen (j : Nat) (x y z : Word) (hj : 16 ≤ j) :
    gg j x y z = (x &&& y) ||| (~~~x &&& z) := if_neg (by omega)

/-- R133: the three conjunctions make the majority of three bits. -/
theorem majority_eq_decide (x y z : Bool) :
    (x && y || x && z || y && z) = decide (2 ≤ x.toNat + y.toNat + z.toNat) := by
  revert x y z
  decide

/-- R134: the two conjunctions make the choice between the second bit and the third. -/
theorem choice_eq_ite (x y z : Bool) : (x && y || !x && z) = if x then y else z := by
  revert x y z
  decide

/-! ### The permutation functions

Both are `x ^^^ rotl x a ^^^ rotl x b`. Over GF(2) squaring such a map doubles its two distances, since the mixed terms
cancel. After five squarings both distances are multiples of 32 and the map is the identity. -/

/-- The shape of `P0` and `P1`. -/
def rotXor (a b : Nat) (x : Word) : Word := x ^^^ rotl x a ^^^ rotl x b

theorem p0_eq_rotXor : p0 = rotXor 9 17 := rfl

theorem p1_eq_rotXor : p1 = rotXor 15 23 := rfl

theorem rotXor_xor (a b : Nat) (x y : Word) : rotXor a b (x ^^^ y) = rotXor a b x ^^^ rotXor a b y := by
  simp only [rotXor, rotl_xor]
  ac_rfl

/-- Two rotations `u` and `v` and a mixed term `m` that each occur twice cancel. -/
theorem xor_cancel_mixed (x u v m s t : Word) :
    (x ^^^ u ^^^ v) ^^^ (u ^^^ s ^^^ m) ^^^ (v ^^^ m ^^^ t) = x ^^^ s ^^^ t := by
  calc (x ^^^ u ^^^ v) ^^^ (u ^^^ s ^^^ m) ^^^ (v ^^^ m ^^^ t)
      = x ^^^ s ^^^ t ^^^ (u ^^^ u) ^^^ (v ^^^ v) ^^^ (m ^^^ m) := by ac_rfl
    _ = x ^^^ s ^^^ t := by simp only [BitVec.xor_self, BitVec.xor_zero]

theorem rotXor_rotXor (a b : Nat) (x : Word) : rotXor a b (rotXor a b x) = rotXor (a + a) (b + b) x := by
  simp only [rotXor, rotl_xor, rotl_rotl, Nat.add_comm b a]
  exact xor_cancel_mixed x _ _ _ _ _

theorem rotXor_iterate_two_pow (k a b : Nat) : (rotXor a b)^[2 ^ k] = rotXor (2 ^ k * a) (2 ^ k * b) := by
  induction k with
  | zero => simp
  | succ k ih =>
    have hdouble (n : Nat) : 2 ^ (k + 1) * n = 2 ^ k * n + 2 ^ k * n := by rw [pow_succ, mul_two, add_mul]
    funext x
    rw [hdouble, hdouble, ← rotXor_rotXor, ← ih, ← Function.iterate_add_apply, pow_succ, mul_two]

theorem rotl_of_mod_eq_zero (x : Word) (n : Nat) (h : n % 32 = 0) : rotl x n = x := by
  apply BitVec.eq_of_getLsbD_eq
  intro i hi
  rw [getLsbD_rotl, h, if_neg (Nat.not_lt_zero i), decide_eq_true hi, Bool.true_and, Nat.sub_zero]

theorem rotXor_iterate_thirtyTwo (a b : Nat) : (rotXor a b)^[32] = id := by
  funext x
  rw [show 32 = 2 ^ 5 from rfl, rotXor_iterate_two_pow, rotXor, rotl_of_mod_eq_zero x _ (by omega),
    rotl_of_mod_eq_zero x _ (by omega), BitVec.xor_self, BitVec.zero_xor, id]

theorem rotXor_bijective (a b : Nat) : Function.Bijective (rotXor a b) := by
  have hleft : (rotXor a b)^[31] ∘ rotXor a b = id := rotXor_iterate_thirtyTwo a b
  have hinj : Function.Injective (rotXor a b) := .of_comp (hleft ▸ Function.injective_id)
  exact Finite.injective_iff_bijective.1 hinj

/-! ### The message expansion -/

/-- Word `j` of the recurrence reads only the words before `j`. -/
theorem expandNext_congr (w w' : List Word) (j : Nat) (hj : 0 < j) (h : ∀ i < j, w.getD i 0 = w'.getD i 0) :
    expandNext w j = expandNext w' j := by
  simp only [expandNext]
  rw [h (j - 16) (by omega), h (j - 9) (by omega), h (j - 3) (by omega), h (j - 13) (by omega), h (j - 6) (by omega)]

/-- Every appended word is the recurrence on the expanded words. -/
theorem getD_expandFrom_new (n : Nat) (w : List Word) (j : Nat) (hw : 0 < w.length) (hlo : w.length ≤ j)
    (hhi : j < w.length + n) : (expandFrom n w).getD j 0 = expandNext (expandFrom n w) j := by
  induction n generalizing w with
  | zero => omega
  | succ n ih =>
    have hlen : (w ++ [expandNext w w.length]).length = w.length + 1 := by simp
    rcases Nat.eq_or_lt_of_le hlo with rfl | hlt
    · have hfirst : (expandFrom (n + 1) w).getD w.length 0 = expandNext w w.length := by
        rw [expandFrom, getD_expandFrom_old n _ _ (by omega)]
        simp
      rw [hfirst]
      exact expandNext_congr _ _ _ hw fun i hi => (getD_expandFrom_old (n + 1) w i hi).symm
    · exact ih _ (by omega) (by omega) (by omega)

theorem getD_expandWords_message (b : List Word) (j : Nat) (hb : b.length = 16) (hj : j < 16) :
    (expandWords b).getD j 0 = b.getD j 0 :=
  getD_expandFrom_old 52 b j (by omega)

theorem getD_expandWords_recurrence (b : List Word) (j : Nat) (hb : b.length = 16) (hlo : 16 ≤ j) (hhi : j < 68) :
    (expandWords b).getD j 0 = expandNext (expandWords b) j :=
  getD_expandFrom_new 52 b j (by omega) (by omega) (by omega)

/-- The XOR of two buffers, word by word. -/
def xorWords (b c : List Word) : List Word := List.zipWith (· ^^^ ·) b c

theorem length_xorWords (b c : List Word) (h : b.length = c.length) : (xorWords b c).length = b.length := by
  simp [xorWords, h]

theorem getD_xorWords (b c : List Word) (h : b.length = c.length) (k : Nat) :
    (xorWords b c).getD k 0 = b.getD k 0 ^^^ c.getD k 0 := by
  by_cases hk : k < b.length
  · simp [xorWords, hk, h ▸ hk]
  · have hk' : ¬ k < c.length := h ▸ hk
    simp [xorWords, List.getD_eq_getElem?_getD, hk, hk']

theorem expandNext_xorWords (b c : List Word) (h : b.length = c.length) (j : Nat) :
    expandNext (xorWords b c) j = expandNext b j ^^^ expandNext c j := by
  simp only [expandNext, getD_xorWords b c h, rotl_xor, p1_eq_rotXor, rotXor_xor]
  ac_rfl

theorem xorWords_append (b c : List Word) (h : b.length = c.length) (x y : Word) :
    xorWords (b ++ [x]) (c ++ [y]) = xorWords b c ++ [x ^^^ y] := by
  simp [xorWords, List.zipWith_append h]

theorem expandFrom_xorWords (n : Nat) (b c : List Word) (h : b.length = c.length) :
    expandFrom n (xorWords b c) = xorWords (expandFrom n b) (expandFrom n c) := by
  induction n generalizing b c with
  | zero => rfl
  | succ n ih =>
    rw [expandFrom, length_xorWords b c h, expandNext_xorWords b c h, ← xorWords_append b c h, ih _ _ (by simp [h]),
      expandFrom, expandFrom, h]

theorem combineWords_xorWords (w w' : List Word) (h : w.length = w'.length) :
    combineWords (xorWords w w') = xorWords (combineWords w) (combineWords w') := by
  have hlen : (combineWords w).length = (combineWords w').length := by simp
  apply words_ext (length_combineWords _) ((length_xorWords _ _ hlen).trans (length_combineWords w))
  intro k hk
  simp only [getD_xorWords _ _ hlen, getD_xorWords _ _ h, getD_combineWords _ k hk]
  ac_rfl

/-! ### The round and CF -/

theorem tConst_eq_ite (p : Params) (j : Nat) : tConst p j = if j < 16 then p.tLo else p.tHi :=
  if_congr Nat.lt_succ_iff.symm rfl rfl

/-- R139: the working registers of the call CF(`s`, `b`) at the start of round `n`. -/
def cfRegs (p : Params) (s : Chain) (b : List Word) (n : Nat) : Regs :=
  rounds p n 0 (expandWords b) (combineWords (expandWords b)) (regsOfChain s)

theorem cfRegs_succ (p : Params) (s : Chain) (b : List Word) (n : Nat) :
    cfRegs p s b (n + 1) =
      roundStep p n ((expandWords b).getD n 0) ((combineWords (expandWords b)).getD n 0) (cfRegs p s b n) := by
  rw [cfRegs, rounds_last, Nat.zero_add, cfRegs]

theorem cf_eq_feedForward (p : Params) (s : Chain) (b : List Word) :
    cf p s b = chainXor (chainOfRegs (cfRegs p s b 64)) s := rfl

/-! ### A command whose chunk the accumulator does not have -/

/-- R111, R215: such a command presented while idle raises BADK and completes at once. -/
theorem exec_rejects (i : Instr) (s : State) (hb : s.status.busy = false) (hw : i.wf s.params.accLen = false) :
    exec i s = .next (s.acceptIllegal .badK) := by
  rcases exec_presents i s with ⟨_, _, hn, _⟩ | ⟨_, h⟩
  · rw [hw] at hn
    cases hn
  · rw [h, present_error s _ hb]

theorem acceptIllegal_eq_withError (s : State) (c : ErrCode) :
    s.acceptIllegal c =
      { s.withError (errBits c) with status := { (s.withError (errBits c)).status with done := true } } := rfl

/-! ### The obligations -/

/-- Settles O29: the effect of R119 on the new `V` is `IV`. -/
theorem initvLoadsTheInitialValue : Obligations.InitvLoadsTheInitialValue :=
  ⟨rfl, fun s hb => completesWith_effect .initv s hb rfl, droppedWhileBusy .initv⟩

/-- Settles O32: chunk 0 of `DIN` is its words 0 to 15. -/
theorem cmpdinCompressesTheInputBuffer : Obligations.CmpdinCompressesTheInputBuffer := by
  refine ⟨rfl, ?_, droppedWhileBusy .cmpdin⟩
  intro s hb
  have hchunk : chunk 0 s.din = (List.range 16).map fun j => s.din.getD j 0 := by
    simp only [chunk, Nat.mul_zero, Nat.zero_add]
  rw [← hchunk]
  exact completesWith_effect .cmpdin s hb rfl

/-- Settles O33: with its chunk there the command is legal; without it, it is presented as an error. -/
theorem cmpaccCompressesAChunkOfTheAccumulator : Obligations.CmpaccCompressesAChunkOfTheAccumulator := by
  refine ⟨rfl, rfl, ?_, ?_, fun k => droppedWhileBusy (.cmpacc k)⟩
  · intro k s hb hk
    exact completesWith_effect (.cmpacc k) s hb (decide_eq_true hk)
  · intro s hb hm
    have hw : (Instr.cmpacc 1).wf s.params.accLen = false := by rw [hm]; rfl
    rw [exec_rejects _ s hb hw, acceptIllegal_eq_withError]
    rfl

/-- Settles O35: the bits of the two forms on either side of round 16. -/
theorem booleanFunctionsSwitchAtRoundSixteen : Obligations.BooleanFunctionsSwitchAtRoundSixteen := by
  intro j x y z b hb
  constructor
  · intro hj
    rw [ff_upto_fifteen j x y z hj, gg_upto_fifteen j x y z hj, BitVec.getLsbD_xor, BitVec.getLsbD_xor]
    exact ⟨rfl, rfl⟩
  · intro hj
    rw [ff_from_sixteen j x y z hj, gg_from_sixteen j x y z hj, ← majority_eq_decide, ← choice_eq_ite]
    simp [hb]

/-- Settles O36: both functions are `rotXor`, which is linear, and whose 32nd iterate is the identity. -/
theorem permutationFunctionsAreLinearBijections : Obligations.PermutationFunctionsAreLinearBijections := by
  refine ⟨fun _ => ⟨rfl, rfl⟩, ?_⟩
  rw [p0_eq_rotXor, p1_eq_rotXor]
  exact ⟨fun x y => ⟨rotXor_xor 9 17 x y, rotXor_xor 15 23 x y⟩, rotXor_bijective 9 17, rotXor_bijective 15 23⟩

/-- Settles O37: the recurrence by induction on the appended words, linearity from that of `p1` and of the rotations. -/
theorem expansionFollowsTheRecurrence : Obligations.ExpansionFollowsTheRecurrence := by
  constructor
  · intro b hb
    exact ⟨by rw [length_expandWords, hb], fun j hj => getD_expandWords_message b j hb hj,
      fun j hlo hhi => getD_expandWords_recurrence b j hb hlo hhi, length_combineWords _,
      fun j hj => getD_combineWords _ j hj⟩
  · intro b c hb hc
    have hexpand : expandWords (xorWords b c) = xorWords (expandWords b) (expandWords c) :=
      expandFrom_xorWords 52 b c (hb.trans hc.symm)
    have hlen : (expandWords b).length = (expandWords c).length := by
      rw [length_expandWords, length_expandWords, hb, hc]
    refine ⟨hexpand, ?_⟩
    calc combineWords (expandWords (xorWords b c))
        = combineWords (xorWords (expandWords b) (expandWords c)) := by rw [hexpand]
      _ = xorWords (combineWords (expandWords b)) (combineWords (expandWords c)) := combineWords_xorWords _ _ hlen

/-- Settles O39: the registers are `cfRegs`, whose next member is a round. -/
theorem cfIsSixtyFourRoundsAndFeedForward : Obligations.CfIsSixtyFourRoundsAndFeedForward := by
  intro p s b
  refine ⟨cfRegs p s b, rfl, fun j _ => cfRegs_succ p s b j, ?_⟩
  rw [cf_eq_feedForward]
  rfl

/-- Settles O38: the assignments of `roundStep`, its constant spelled by round 16; rotations by 0 and 32 do nothing. -/
theorem roundUpdatesTheWorkingRegisters : Obligations.RoundUpdatesTheWorkingRegisters := by
  intro p j w wc r
  simp only [← tConst_eq_ite]
  exact ⟨rfl, rfl, rfl, rfl, rfl, rfl, rfl, rfl, rotl_of_mod_eq_zero _ 0 rfl, rotl_of_mod_eq_zero _ 32 rfl⟩

end Sys2Proof.Machine

/-! PROOFS. Reduction (spec 42_reduction.md): CLRACC (R171), FOLD (R173, R174), and the fold of byte sequences as the
XOR of their packed words (R172). -/

namespace Sys2Proof.Machine

/-! ### The cleared accumulator -/

/-- R171: inside the buffer the words of `zeros` are there, and are 0 whatever the default of the lookup. -/
theorem getD_zeros_of_lt (m : AccLen) (k : Nat) (d : Word) (hk : k < m.words) : (zeros m).getD k d = 0 :=
  List.getD_replicate 0 hk

/-! ### The fold of byte sequences -/

@[simp] theorem length_foldBytes (m : AccLen) (a x : List Byte) : (foldBytes m a x).length = m.bytes := by
  simp [foldBytes]

theorem getD_foldBytes (m : AccLen) (a x : List Byte) (i : Nat) (hi : i < m.bytes) :
    (foldBytes m a x).getD i 0 = a.getD i 0 ^^^ x.getD i 0 := by
  simp [foldBytes, hi]

/-- R10: bytes are counted from the most significant end, bits from the least. -/
theorem getLsbD_eq_byte (x : Word) (i : Nat) (hi : i < 32) :
    x.getLsbD i = (x.extractLsb' (24 - 8 * (3 - i / 8)) 8).getLsbD (i % 8) := by
  have hbit : 24 - 8 * (3 - i / 8) + i % 8 = i := by omega
  have hlt : i % 8 < 8 := Nat.mod_lt i (by decide)
  rw [BitVec.getLsbD_extractLsb', hbit, decide_eq_true hlt, Bool.true_and]

theorem word_ext_bytes {x y : Word}
    (h : ∀ b < 4, x.extractLsb' (24 - 8 * b) 8 = y.extractLsb' (24 - 8 * b) 8) : x = y := by
  apply BitVec.eq_of_getLsbD_eq
  intro i hi
  rw [getLsbD_eq_byte x i hi, getLsbD_eq_byte y i hi, h (3 - i / 8) (by omega)]

/-- R172: XOR acts on each byte lane of a word on its own. -/
theorem wordAt_foldBytes (m : AccLen) (a x : List Byte) (k : Nat) (hk : k < m.words) :
    wordAt (foldBytes m a x) k = wordAt a k ^^^ wordAt x k := by
  apply word_ext_bytes
  intro b hb
  have hi : 4 * k + b < m.bytes := by have := four_words m; omega
  rw [BitVec.extractLsb'_xor, extractLsb'_wordAt _ k b hb, extractLsb'_wordAt a k b hb, extractLsb'_wordAt x k b hb,
    getD_foldBytes m a x _ hi]

theorem packWords_foldBytes (m : AccLen) (a x : List Byte) :
    packWords m (foldBytes m a x) = foldWords m (packWords m a) (packWords m x) := by
  apply words_ext (length_packWords m _) (length_foldWords m _ _)
  intro k hk
  rw [getD_packWords m _ k hk, wordAt_foldBytes m a x k hk, getD_foldWords m _ _ k hk, getD_packWords m a k hk,
    getD_packWords m x k hk]

/-! ### The obligations -/

/-- Settles O30: the effect of R119 on the new `ACC` is `zeros`. -/
theorem clraccClearsTheAccumulator : Obligations.ClraccClearsTheAccumulator := by
  refine ⟨rfl, ?_, droppedWhileBusy .clracc⟩
  intro s hb
  exact ⟨zeros s.params.accLen, completesWith_effect .clracc s hb rfl, length_zeros _,
    fun k hk => getD_zeros_of_lt _ k 1 hk⟩

/-- Settles O31: the effect of R119 on the new `ACC` is the word fold with `DIN`; a bit of an XOR is the XOR of the
bits. -/
theorem foldXorsTheStagedChunk : Obligations.FoldXorsTheStagedChunk := by
  refine ⟨rfl, ?_, droppedWhileBusy .fold⟩
  intro s hb
  refine ⟨foldWords s.params.accLen s.acc s.din, completesWith_effect .fold s hb rfl, length_foldWords _ _ _, ?_⟩
  intro k hk
  have hword := getD_foldWords s.params.accLen s.acc s.din k hk
  exact ⟨hword, fun b => by rw [hword, BitVec.getLsbD_xor]⟩

/-- Settles O42: the packed words agree because their bytes do. -/
theorem byteFoldIsWordFold : Obligations.ByteFoldIsWordFold := by
  intro m a x _ _
  exact ⟨length_foldBytes m a x, fun i hi => getD_foldBytes m a x i hi, packWords_foldBytes m a x⟩

end Sys2Proof.Machine

/-! PROOFS. The Digest Finalizer (spec 43_finalizer.md): FINAL (R192, R193) and the calls of `Finalize` on each length
(R190, R196). -/

namespace Sys2Proof.Machine

/-! ### The calls of `Finalize` -/

theorem finalize_of_m64 (p : Params) (acc : List Word) (hm : p.accLen = .m64) :
    finalize p acc = cf p p.iv (chunk 0 acc) := by
  rw [← foldl_laterChunks, hm]
  rfl

theorem finalize_of_m128 (p : Params) (acc : List Word) (hm : p.accLen = .m128) :
    finalize p acc = cf p (cf p p.iv (chunk 0 acc)) (chunk 1 acc) := by
  rw [← foldl_laterChunks, hm]
  rfl

/-! ### The obligation -/

/-- Settles O34: the effect of R119 is `(finalize, zeros)`, and `finalize` is one call per chunk. -/
theorem finalFinalizesTheAccumulator : Obligations.FinalFinalizesTheAccumulator := by
  refine ⟨rfl, ?_, droppedWhileBusy .final⟩
  intro s hb
  have hcommit : CompletesWith .final s (finalize s.params s.acc) (zeros s.params.accLen) :=
    completesWith_effect .final s hb rfl
  refine ⟨zeros s.params.accLen, ?_, length_zeros _, fun k hk => getD_zeros_of_lt _ k 1 hk⟩
  cases hm : s.params.accLen with
  | m64 => rwa [finalize_of_m64 _ _ hm, hm] at hcommit
  | m128 => rwa [finalize_of_m128 _ _ hm, hm] at hcommit

end Sys2Proof.Machine

/-! PROOFS. Exceptions (spec 60_exceptions.md): the fields `ERR` and `ECODE` through a write and through a step (R212,
R214), the illegal command words (R213, R215), and the interrupt (R218). -/

namespace Sys2Proof.Machine

/-! ### The registers of the map whose writes a busy block drops -/

/-- R61: the map gives a register at its own offset. -/
theorem regOffset_regAt (m : AccLen) (off : Nat) (h4 : off % 4 = 0) : regOffset (regAt m off) = off := by
  unfold regAt
  split_ifs <;> simp only [regOffset] <;> omega

theorem regAddr_regAt (p : Params) (addr : Nat) (hd : DefinedAccess p .word addr) :
    regAddr p (regAt p.accLen (addr - p.base)) = addr := by
  obtain ⟨_, hlo, _, h4⟩ := hd
  rw [regAddr, regOffset_regAt _ _ h4]
  omega

/-- R214: whether the busy block drops a write to the register and raises BUSYWR. -/
def Reg.WritableOnlyIdle (r : Reg) : Prop :=
  r = .cmd ∨ (∃ i, r = .v i) ∨ ∃ k, r = .din k

theorem regAt_writableOnlyIdle_iff (m : AccLen) (off : Nat) :
    (regAt m off).WritableOnlyIdle ↔
      off = 0x008 ∨ (0x020 ≤ off ∧ off < 0x040) ∨ (0x100 ≤ off ∧ off < 0x100 + m.bytes) := by
  unfold regAt
  split_ifs <;> simp [Reg.WritableOnlyIdle] <;> omega

theorem writeIdle_busy (s s' : State) (hb : s.status.busy = true) : writeIdle s s' = s.withError 3 :=
  if_pos hb

theorem writeCmd_busy (v : Word) (s : State) (hb : s.status.busy = true) : writeCmd v s = .next (s.withError 3) := by
  obtain ⟨c, h, _⟩ := writeCmd_presents v s
  rw [h, present_busy s c hb]
  rfl

theorem writeReg_dropped (r : Reg) (v : Word) (s : State) (hb : s.status.busy = true) (hr : r.WritableOnlyIdle) :
    writeReg r v s = .next (s.withError 3) := by
  rcases hr with rfl | ⟨i, rfl⟩ | ⟨k, rfl⟩
  · exact writeCmd_busy v s hb
  · rw [writeReg, writeIdle_busy s _ hb]
  · rw [writeReg, writeIdle_busy s _ hb]

/-! ### What becomes of a recorded error

From `s` to `t` the recorded error is kept or cleared, or one more is raised, which is recorded only when none is. -/

def State.KeepsError (s t : State) : Prop := t.status.err = s.status.err ∧ t.status.ecode = s.status.ecode

def State.ErrorCleared (t : State) : Prop := t.status.err = false ∧ t.status.ecode = 0

/-- R212: an error was raised on the way from `s` to `t`. -/
def State.RaisesError (s t : State) : Prop :=
  ∃ c, t.status.err = true ∧ t.status.ecode = if s.status.err then s.status.ecode else errBits c

theorem State.RaisesError.keepsError {s t : State} (h : s.RaisesError t) (he : s.status.err = true) :
    s.KeepsError t := by
  obtain ⟨c, herr, hcode⟩ := h
  exact ⟨herr.trans he.symm, by rw [hcode, if_pos he]⟩

theorem raise_raisesError (s : State) (c : ErrCode) : s.RaisesError (s.raise c) :=
  ⟨c, raiseError_err c _, raiseError_ecode c _⟩

theorem acceptIllegal_raisesError (s : State) (c : ErrCode) : s.RaisesError (s.acceptIllegal c) :=
  ⟨c, statusIllegal_err c _, statusIllegal_ecode c _⟩

/-- Presenting a command raises an error or leaves the recorded one. -/
theorem present_error_cases (s : State) (c : Presented) :
    s.KeepsError (s.present c) ∨ s.RaisesError (s.present c) := by
  rcases present_cases s c with ⟨_, h⟩ | ⟨_, e, _, h⟩ | ⟨_, r, _, h⟩ <;> rw [h]
  · exact .inr (raise_raisesError s .busyWr)
  · exact .inr (acceptIllegal_raisesError s e)
  · exact .inl ⟨rfl, rfl⟩

/-- R32: the write of `STATUS` clears the error by bit 2 alone. -/
theorem statusWrite_error_cases (v : Word) (s : State) :
    s.KeepsError { s with status := statusWrite v s.status } ∨
      (v.getLsbD 2 = true ∧ State.ErrorCleared { s with status := statusWrite v s.status }) := by
  rw [statusWrite_eq_ite]
  cases v.getLsbD 2
  · exact .inl ⟨rfl, rfl⟩
  · exact .inr ⟨rfl, rfl, rfl⟩

/-- Everything a write to a register can do to the recorded error (R115, R212, R214). -/
theorem writeReg_error_cases (r : Reg) (v : Word) (s t : State) (h : writeReg r v s = .next t) :
    s.KeepsError t ∨ (r = .status ∧ v.getLsbD 2 = true ∧ t.ErrorCleared) ∨ t = s.resetBlock ∨
      (r.WritableOnlyIdle ∧ s.RaisesError t) := by
  have ht {u : State} (hu : writeReg r v s = .next u) : t = u := Host.Outcome.next.inj (h.symm.trans hu)
  rcases writeReg_cases r v s with hu | ⟨_, _, hu⟩ | ⟨_, _, hu⟩ | ⟨hr, hu⟩ | ⟨_, hr, hu⟩ | ⟨_, _, _, hu⟩ |
    ⟨_, _, _, hu⟩ | ⟨hr, c, hu, _⟩ <;> obtain rfl := ht hu
  · exact .inl ⟨rfl, rfl⟩
  · exact .inr (.inr (.inl rfl))
  · exact .inl ⟨rfl, rfl⟩
  · rcases statusWrite_error_cases v s with hkeep | hclear
    · exact .inl hkeep
    · exact .inr (.inl ⟨hr, hclear⟩)
  · exact .inr (.inr (.inr ⟨.inr hr, raise_raisesError s .busyWr⟩))
  · exact .inl ⟨rfl, rfl⟩
  · exact .inl ⟨rfl, rfl⟩
  · rcases present_error_cases s c with hkeep | hraise
    · exact .inl hkeep
    · exact .inr (.inr (.inr ⟨.inl hr, hraise⟩))

theorem complete_keepsError (s : State) : s.KeepsError s.complete := by
  rcases complete_cases s with ⟨_, h⟩ | ⟨r, _, h⟩ <;> rw [h] <;> exact ⟨rfl, rfl⟩

theorem roundTick_keepsError (s : State) : s.KeepsError s.roundTick := by
  rcases roundTick_cases s with ⟨_, h⟩ | ⟨r, _, h⟩ <;> rw [h] <;> exact ⟨rfl, rfl⟩

/-- R212: a host operation keeps the first error, unless it is the write that clears it or the soft reset. -/
theorem runHostOp_first_error (op : HostOp) (s t : State) (he : s.status.err = true)
    (h : runHostOp op s = .next t) :
    s.KeepsError t ∨
      (∃ v, op = .wr .word (regAddr s.params .status) v ∧ v.getLsbD 2 = true ∧ t.ErrorCleared) ∨
      t = s.resetBlock := by
  rcases runHostOp_cases op s t h with ⟨addr, v, rfl, hd, hw⟩ | ⟨_, _, _, _, rfl⟩
  · rcases writeReg_error_cases _ v s t hw with hkeep | ⟨hr, hv, hclear⟩ | hreset | ⟨_, hraise⟩
    · exact .inl hkeep
    · have haddr : regAddr s.params .status = addr := hr ▸ regAddr_regAt s.params addr hd
      exact .inr (.inl ⟨v, by rw [haddr], hv, hclear⟩)
    · exact .inr (.inr hreset)
    · exact .inl (hraise.keepsError he)
  · exact .inl ⟨rfl, rfl⟩

/-! ### An illegal word in `CMD` -/

/-- R111: an illegal word written while idle raises its error and completes at once. -/
theorem busWrite_cmd_error (s : State) (w : Word) (c : ErrCode) (hb : s.status.busy = false)
    (h : decode s.params.accLen w = .error c) :
    busWrite .word (regAddr s.params .cmd) w s =
      .next { s.withError (errBits c) with status := { (s.withError (errBits c)).status with done := true } } := by
  rw [busWrite_cmd, writeCmd_error s w c h, present_error s c hb, acceptIllegal_eq_withError]

/-! ### The interrupt -/

theorem irq_of_done (s : State) (h : s.status.done = true) : s.irq = s.ie := by
  rw [State.irq, h, Bool.and_true]

theorem irq_of_not_done (s : State) (h : s.status.done = false) : s.irq = false := by
  rw [State.irq, h, Bool.and_false]

/-! ### The obligations -/

/-- Settles O16: by the register at the offset. A write the busy block does not drop raises no error. -/
theorem busyWritesAreDroppedWithBusywr : Obligations.BusyWritesAreDroppedWithBusywr := by
  intro s off v hb hoff h4
  simp only [busWrite_offset s off v hoff h4, ← regAt_writableOnlyIdle_iff]
  refine ⟨writeReg_dropped _ v s hb, fun hr => ?_⟩
  obtain ⟨t, ht⟩ := writeReg_next (regAt s.params.accLen off) v s
  refine ⟨t, ht, ?_⟩
  rcases writeReg_error_cases _ v s t ht with ⟨herr, hcode⟩ | ⟨_, _, herr, hcode⟩ | rfl | ⟨hr', _⟩
  · exact ⟨fun h => herr.symm.trans h, .inl hcode⟩
  · exact ⟨fun h => absurd (herr.symm.trans h) Bool.false_ne_true, .inr hcode⟩
  · exact ⟨fun h => absurd h Bool.false_ne_true, .inr rfl⟩
  · exact absurd hr' hr

/-- Settles O21: the three forms are those the decoder answers with ILLOP. -/
theorem reservedWordsRaiseIllop : Obligations.ReservedWordsRaiseIllop := by
  intro s v hb h
  rw [← kField_eq_one_iff] at h
  exact busWrite_cmd_error s v .illop hb (decode_of_hasIllopField _ v h)

/-- Settles O51: turn by turn. Only a host's write of `STATUS` and the two resets reach a recorded error. -/
theorem firstErrorIsKeptUntilCleared : Obligations.FirstErrorIsKeptUntilCleared := by
  refine ⟨fun s c => by cases c <;> rfl, ?_⟩
  intro s t h he
  have hkeep {u : State} (hu : (takeTurn s).KeepsError u) :
      u.status.err = true ∧ u.status.ecode = s.status.ecode := ⟨hu.1.trans he, hu.2⟩
  rcases step_cases s t h with ⟨_, _, rfl⟩ | ⟨hn, op, rest, hops, hop⟩ | ⟨_, rfl⟩ | ⟨_, rfl⟩ | ⟨_, rfl⟩
  · exact .inl ⟨he, rfl⟩
  · rcases runHostOp_first_error op { takeTurn s with hostOps := rest } t he hop with hu | ⟨v, rfl, hv, hclear⟩ | rfl
    · exact .inl (hkeep hu)
    · exact .inr (.inl ⟨v, rest, hv, hn, hops, hclear⟩)
    · exact .inr (.inr rfl)
  · exact .inl (hkeep (roundTick_keepsError _))
  · exact .inl (hkeep (complete_keepsError _))
  · exact .inr (.inr rfl)

/-- Settles O22: the word names chunk 1, which the decoder finds absent on one length and accepts on the other. -/
theorem absentChunkRaisesBadK : Obligations.AbsentChunkRaisesBadK := by
  intro s hb
  constructor
  · intro hm
    have hd : decode s.params.accLen 0x00000015 = .error .badK := by rw [hm]; decide
    exact busWrite_cmd_error s 0x00000015 .badK hb hd
  · intro hm
    have hd : decode s.params.accLen 0x00000015 = .ok (.cmpacc 1) := by rw [hm]; decide
    obtain ⟨r, hexec, hcmd, _⟩ := exec_accepts (.cmpacc 1) s hb (wf_of_decode_ok _ _ _ hd)
    exact ⟨r, hcmd, by rw [busWrite_cmd, writeCmd_ok s _ _ hd, hexec]⟩

/-- Settles O52: each event by the `DONE` it leaves; a write of `CTRL` without the reset bit stores `IE`. -/
theorem interruptIsIeAndDone : Obligations.InterruptIsIeAndDone := by
  intro s v r
  refine ⟨rfl, ?_, ?_, ?_, ?_, ?_, ?_, ?_⟩
  · intro hr
    rw [complete_of_running s r hr]
    exact irq_of_done _ rfl
  · intro c
    exact irq_of_done _ (statusIllegal_done c _)
  · intro c
    simp only [State.irq, raise_ie, raise_status, raiseError_done]
  · exact irq_of_not_done _ (statusAccept_done _)
  · exact irq_of_not_done _ statusReset_done
  · intro hv
    exact ⟨_, busWrite_status s v, irq_of_not_done _ (by simp [hv])⟩
  · intro hv
    have hwrite : writeCtrl v s = { s with ie := v.getLsbD 0 } := by rw [writeCtrl, hv]; rfl
    exact ⟨_, busWrite_ctrl s v, by rw [hwrite]; rfl⟩

end Sys2Proof.Machine

/-! PROOFS. Reset (spec 70_reset_and_hazards.md): the values of R241, that the soft and the hardware reset have one
effect (R240), and that the executing command is aborted (R117, R242). -/

namespace Sys2Proof.Machine

/-! ### The reset values -/

/-- R241, R39: the reset state of every instance; `ACC` and `DIN` are `zeros` of the instance's length. -/
theorem resetOf_holdsResetValues (p : Params) : (State.resetOf p).HoldsResetValues p :=
  have hlen : (zeros p.accLen).length = p.accLen.words := length_zeros p.accLen
  have hzero : ∀ k < p.accLen.words, (zeros p.accLen).getD k 1 = 0 := fun k hk => getD_zeros_of_lt p.accLen k 1 hk
  ⟨rfl, rfl, hlen, hzero, hlen, hzero, rfl, rfl, rfl, rfl, rfl, rfl, irq_of_not_done _ rfl⟩

/-- The fields that a reset leaves (log 15) are none of those R241 speaks of. -/
theorem afterReset_holdsResetValues (s : State) : s.afterReset.HoldsResetValues s.params :=
  resetOf_holdsResetValues s.params

/-! ### The two resets -/

/-- R30: bit 1 of the word written to `CTRL` is the soft reset, whatever its other bits. -/
theorem busWrite_ctrl_softReset (s : State) (v : Word) (hv : v.getLsbD 1 = true) :
    busWrite .word (regAddr s.params .ctrl) v s = .next s.afterReset := by
  rw [busWrite_ctrl, writeCtrl, if_pos hv, resetBlock_eq_afterReset]

theorem runTurn_reset (s : State) : runTurn .reset s = .next s.afterReset := by
  rw [runTurn, resetBlock_eq_afterReset]

/-! ### With no command executing, the block's own turns change nothing (log 16) -/

theorem complete_of_not_running (s : State) (h : s.running = none) : s.complete = s := by
  rw [State.complete, h]

theorem roundTick_of_not_running (s : State) (h : s.running = none) : s.roundTick = s := by
  rw [State.roundTick, h]

/-! ### The obligations -/

/-- Settles O1: both resets answer `afterReset`, which agrees with `resetOf` on every piece of the block's state. -/
theorem resetGivesEveryPieceItsValue : Obligations.ResetGivesEveryPieceItsValue :=
  ⟨fun s v hv => ⟨s.afterReset, busWrite_ctrl_softReset s v hv, runTurn_reset s, afterReset_holdsResetValues s⟩,
    resetOf_holdsResetValues, resetOf_holdsResetValues paramsDefault⟩

/-- Settles O3: no command executes after the reset, so neither of the block's own turns commits anything, and the host
reads the `IE` that the reset cleared. -/
theorem bothResetsHaveTheSameEffect : Obligations.BothResetsHaveTheSameEffect := by
  intro s v hv
  have hidle : s.afterReset.running = none := rfl
  have hread : busRead .word (regAddr s.params .ctrl) s.afterReset = .next (s.afterReset.withRead 0) :=
    busRead_stored s.afterReset .ctrl trivial rfl
  exact ⟨busWrite_ctrl_softReset s v hv, runTurn_reset s, afterReset_holdsResetValues s,
    complete_of_not_running _ hidle, roundTick_of_not_running _ hidle, hread⟩

end Sys2Proof.Machine

/-! PROOFS. Decoding and encoding (spec 30_encoding.md R92): the decoder answers exactly the encodings, and the words of
the operation map. -/

namespace Sys2Proof

/-! ### A command is its `OP` and its `K` -/

theorem encode_eq_fields (i : Instr) : encode i = (0 : BitVec 27) ++ i.kBit ++ i.op := rfl

theorem eq_of_fields {i j : Instr} (hop : i.op = j.op) (hk : i.kBit = j.kBit) : i = j := by
  have h := operation_op i
  rw [hop, hk, operation_op j] at h
  exact (Option.some.inj h).symm

/-- R91: `K` is 0 outside CMPACC. -/
theorem op_eq_five_of_kBit (i : Instr) (h : i.kBit = 1) : i.op = 5 := by
  cases i with
  | cmpacc k => rfl
  | _ => exact absurd h (by decide)

theorem eq_cmpacc_one_of_fields {i : Instr} (hop : i.op = 5) (hk : i.kBit = 1) : i = .cmpacc 1 :=
  eq_of_fields (j := .cmpacc 1) hop hk

/-! ### The decoder on an encoding -/

theorem not_hasIllopField_encode (i : Instr) : ¬ HasIllopField (encode i) := by
  rintro (h | h | ⟨hk, hop⟩)
  · exact h (rsvdField_encode i)
  · rw [opField_encode] at h
    exact nomatch (operation_op i).symm.trans ((operation_none_iff _ _).2 h)
  · rw [kField_encode] at hk
    rw [opField_encode] at hop
    exact hop (op_eq_five_of_kBit i hk)

theorem not_namesAbsentChunk_encode {m : AccLen} {i : Instr} (hw : i.wf m = true) :
    ¬ NamesAbsentChunk m (encode i) := by
  rintro ⟨hop, hk, hm⟩
  rw [opField_encode] at hop
  rw [kField_encode] at hk
  rw [eq_cmpacc_one_of_fields hop hk, cmpacc_wf_iff] at hw
  exact hw ⟨rfl, hm⟩

theorem decode_encode {m : AccLen} {i : Instr} (hw : i.wf m = true) : decode m (encode i) = .ok i := by
  obtain ⟨j, hd, hop, hk⟩ :=
    decode_of_passes m (encode i) (not_hasIllopField_encode i) (not_namesAbsentChunk_encode hw)
  rw [opField_encode] at hop
  rw [kField_encode] at hk
  rw [hd, eq_of_fields hop hk]

/-- A legal word has no bit beyond the fields of its command. -/
theorem eq_encode_of_decode {m : AccLen} {v : Word} {i : Instr} (h : decode m v = .ok i) :
    i.wf m = true ∧ v = encode i := by
  rcases decode_cases m v with ⟨hd, _⟩ | ⟨hd, _⟩ | ⟨j, hd, hr, _, _, hop, hk, hw⟩
  · cases h.symm.trans hd
  · cases h.symm.trans hd
  · cases h.symm.trans hd
    refine ⟨hw, ?_⟩
    rw [encode_eq_fields, hop, hk, ← hr]
    exact word_eq_fields v

/-! ### The obligations -/

/-- Settles O19: a decoded word is its fields, and an encoding passes every test of R94. -/
theorem legalWordsAreExactlyTheEncodings : Obligations.LegalWordsAreExactlyTheEncodings := by
  intro m v i
  constructor
  · exact eq_encode_of_decode
  · rintro ⟨hw, rfl⟩
    exact decode_encode hw

/-- Settles O23: the legal words are encodings, and each of the others has a field that R94 tests for. -/
theorem commandWordsDecodeAsTheMapSays : Obligations.CommandWordsDecodeAsTheMapSays := by
  intro m
  have h0 : (Instr.cmpacc 0).wf m = true := (cmpacc_wf_iff m 0).2 nofun
  have h1 : (Instr.cmpacc 1).wf .m128 = true := rfl
  have hop : HasIllopField 0x00000007 := .inr (.inl (by decide))
  have hk : HasIllopField 0x00000010 := .inr (.inr (by decide))
  have hr : HasIllopField 0x00000020 := .inl (by decide)
  have hones : HasIllopField 0xFFFFFFFF := .inl (by decide)
  exact ⟨decode_encode (i := .nop) rfl, decode_encode (i := .initv) rfl, decode_encode (i := .clracc) rfl,
    decode_encode (i := .fold) rfl, decode_encode (i := .cmpdin) rfl, decode_encode h0,
    decode_encode (i := .final) rfl, decode_encode h1, decode_of_hasIllopField m _ hop,
    decode_of_hasIllopField m _ hk, decode_of_hasIllopField m _ hr, decode_of_hasIllopField m _ hones⟩

end Sys2Proof

/-! PROOFS. What every step keeps: well-formed states, the latched result (R72, R113), the parameters (R7), safe runs
(R210), and the end of an execution (R114). -/

namespace Sys2Proof.Machine

/-! ### A predicate on the block that every step keeps -/

/-- A predicate that speaks of the block alone is kept by every step when writes to the registers and the block's own
turns keep it. -/
theorem step_keeps {Inv : State → Prop}
    (hmodel : ∀ (s : State) (ops : List HostOp) (ts : List Turn) (xs : List Word) (d : Nat),
      Inv s → Inv { s with hostOps := ops, turns := ts, reads := xs, draws := d })
    (hwrite : ∀ (r : Reg) (v : Word) (s t : State), Inv s → writeReg r v s = .next t → Inv t)
    (hround : ∀ s : State, Inv s → Inv s.roundTick) (hcomplete : ∀ s : State, Inv s → Inv s.complete)
    (hreset : ∀ s : State, Inv s → Inv s.resetBlock)
    {s t : State} (hs : Inv s) (h : step s = .next t) : Inv t := by
  have htake (ops : List HostOp) : Inv { takeTurn s with hostOps := ops } := hmodel s ops s.turns.tail s.reads s.draws hs
  rcases step_cases s t h with ⟨_, _, rfl⟩ | ⟨_, op, rest, _, hop⟩ | ⟨_, rfl⟩ | ⟨_, rfl⟩ | ⟨_, rfl⟩
  · exact htake s.hostOps
  · rcases runHostOp_cases op _ t hop with ⟨_, v, _, _, hw⟩ | ⟨ops, x, d, _, rfl⟩
    · exact hwrite _ v _ t (htake rest) hw
    · exact hmodel _ ops _ _ d (htake rest)
  · exact hround _ (htake s.hostOps)
  · exact hcomplete _ (htake s.hostOps)
  · exact hreset _ (htake s.hostOps)

/-! ### `STATUS` stays well formed -/

/-- R211: the produced codes. -/
theorem errBits_cases (c : ErrCode) : errBits c = 1 ∨ errBits c = 2 ∨ errBits c = 3 := by
  cases c <;> decide

theorem raiseError_wf (c : ErrCode) (st : Status) (h : st.Wf) : (raiseError c st).Wf := by
  obtain ⟨hdone, _, hcode⟩ := h
  refine ⟨by simpa using hdone, by simp, fun _ => ?_⟩
  rw [raiseError_ecode]
  split
  case isTrue he => exact hcode he
  case isFalse => exact errBits_cases c

theorem statusIllegal_wf (c : ErrCode) (st : Status) (h : st.Wf) (hb : st.busy = false) : (statusIllegal c st).Wf := by
  obtain ⟨_, herr⟩ := raiseError_wf c st h
  exact ⟨fun hi => absurd (hb.symm.trans ((statusIllegal_busy c st).symm.trans hi)) nofun, herr⟩

theorem statusAccept_wf (st : Status) (h : st.Wf) : (statusAccept st).Wf := ⟨fun _ => rfl, h.2⟩

theorem statusComplete_wf (st : Status) (h : st.Wf) : (statusComplete st).Wf := ⟨nofun, h.2⟩

theorem statusReset_wf : statusReset.Wf := ⟨nofun, fun _ => rfl, nofun⟩

/-- R32: bit 2 clears `ERR` and `ECODE` together. -/
theorem statusWrite_wf (v : Word) (st : Status) (h : st.Wf) : (statusWrite v st).Wf := by
  obtain ⟨hdone, hclear, hcode⟩ := h
  refine ⟨fun hb => by simp [hdone hb], ?_⟩
  rw [statusWrite_err, statusWrite_ecode]
  cases v.getLsbD 2
  · simpa using ⟨hclear, hcode⟩
  · simp

/-! ### The internal execution state keeps its shape -/

theorem coreTick_wf (m : AccLen) (p : Params) (c : CoreRun) (h : c.Wf m) : (coreTick p c).Wf m := by
  obtain ⟨hw, hwc, hj, hq, htodo⟩ := h
  unfold coreTick
  split
  case isTrue hlt => exact ⟨hw, hwc, hlt, hq, htodo⟩
  case isFalse =>
    cases ht : c.todo with
    | nil => exact ⟨hw, hwc, hj, hq, htodo⟩
    | cons b rest =>
      rw [ht] at hq htodo
      have hb : b.length = 16 := htodo b List.mem_cons_self
      refine ⟨by simp [coreLoad, hb], rfl, Nat.zero_le _, ?_, fun b' hb' => htodo b' (List.mem_cons_of_mem _ hb')⟩
      simp only [coreLoad, List.length_cons] at hq ⊢
      omega

theorem jobTick_wf (m : AccLen) (p : Params) (j : Job) (h : j.Wf m) : (jobTick p j).Wf m := by
  cases j with
  | ready v acc => exact h
  | compress run acc => exact ⟨coreTick_wf m p run h.1, h.2⟩

theorem length_jobResult (m : AccLen) (p : Params) (j : Job) (h : j.Wf m) : (jobResult p j).2.length = m.words := by
  cases j with
  | ready v acc => exact h
  | compress run acc => exact h.2

/-! ### Every step keeps the state well formed -/

theorem running_none_of_idle {s : State} (h : s.status.busy = s.running.isSome) (hb : s.status.busy = false) :
    s.running = none := by
  rw [hb] at h
  exact Option.isNone_iff_eq_none.1 (by simpa using h.symm)

theorem State.Wf.status_wf {s : State} (h : s.Wf) : s.status.Wf := by
  obtain ⟨_, _, _, hstatus, _⟩ := h
  exact hstatus

theorem State.Wf.withStatus {s : State} (h : s.Wf) {st : Status} (hb : st.busy = s.status.busy) (hst : st.Wf) :
    State.Wf { s with status := st } := by
  obtain ⟨hbusy, hacc, hdin, _, hrun⟩ := h
  exact ⟨hb.trans hbusy, hacc, hdin, hst, hrun⟩

theorem resetBlock_wf (s : State) : s.resetBlock.Wf :=
  ⟨rfl, length_zeros _, length_zeros _, statusReset_wf, nofun⟩

theorem raise_wf (s : State) (c : ErrCode) (h : s.Wf) : (s.raise c).Wf :=
  h.withStatus (raiseError_busy c _) (raiseError_wf c _ h.status_wf)

/-- A command at the decoder keeps the state well formed when what it latches is. -/
theorem present_wf (s : State) (c : Presented) (h : s.Wf)
    (hc : ∀ r, c = .ok r → r.cmd.wf s.params.accLen = true ∧ r.job.Wf s.params.accLen) : (s.present c).Wf := by
  have hstatus : s.status.Wf := h.status_wf
  rcases present_cases s c with ⟨_, hp⟩ | ⟨hb, e, _, hp⟩ | ⟨_, r, hr, hp⟩ <;> rw [hp]
  · exact raise_wf s .busyWr h
  · exact h.withStatus (statusIllegal_busy e _) (statusIllegal_wf e _ hstatus hb)
  · obtain ⟨_, hacc, hdin, _, _⟩ := h
    refine ⟨rfl, hacc, hdin, statusAccept_wf _ hstatus, ?_⟩
    rintro r' ⟨⟩
    exact hc r hr

theorem writeReg_wf (r : Reg) (v : Word) (s t : State) (h : s.Wf) (hw : writeReg r v s = .next t) : t.Wf := by
  have ht {u : State} (hu : writeReg r v s = .next u) : t = u := Host.Outcome.next.inj (hw.symm.trans hu)
  rcases writeReg_cases r v s with hu | ⟨_, _, hu⟩ | ⟨_, _, hu⟩ | ⟨_, hu⟩ | ⟨_, _, hu⟩ | ⟨_, _, _, hu⟩ |
    ⟨_, k, _, hu⟩ | ⟨_, c, hu, hc⟩ <;> obtain rfl := ht hu
  · exact h
  · exact resetBlock_wf s
  · exact h
  · exact h.withStatus (statusWrite_busy v _) (statusWrite_wf v _ h.status_wf)
  · exact raise_wf s .busyWr h
  · exact h
  · obtain ⟨hbusy, hacc, hdin, hstatus, hrun⟩ := h
    exact ⟨hbusy, hacc, List.length_set.trans hdin, hstatus, hrun⟩
  · refine present_wf s c h fun r hr => ?_
    obtain ⟨_, hacc, _, _, _⟩ := h
    obtain ⟨hcmd, _, hjob⟩ := hc r hr
    exact ⟨hcmd, hjob hacc⟩

theorem roundTick_wf (s : State) (h : s.Wf) : s.roundTick.Wf := by
  rcases roundTick_cases s with ⟨_, hs⟩ | ⟨r, hr, hs⟩ <;> rw [hs]
  · exact h
  · obtain ⟨hbusy, hacc, hdin, hstatus, hrun⟩ := h
    obtain ⟨hcmd, hjob⟩ := hrun r hr
    refine ⟨hbusy.trans (by rw [hr]; rfl), hacc, hdin, hstatus, ?_⟩
    rintro r' ⟨⟩
    exact ⟨hcmd, jobTick_wf _ _ _ hjob⟩

theorem complete_wf (s : State) (h : s.Wf) : s.complete.Wf := by
  rcases complete_cases s with ⟨_, hs⟩ | ⟨r, hr, hs⟩ <;> rw [hs]
  · exact h
  · obtain ⟨_, _, hdin, hstatus, hrun⟩ := h
    exact ⟨rfl, length_jobResult _ _ _ (hrun r hr).2, hdin, statusComplete_wf _ hstatus, nofun⟩

/-! ### Every step keeps the latched result -/

theorem latched_of_not_running (s : State) (hb : s.status.busy = false) (hr : s.running = none) : s.Latched :=
  ⟨by rw [hb, hr]; rfl, by simp [hr]⟩

theorem State.Latched.withStatus {s : State} (h : s.Latched) {st : Status} (hb : st.busy = s.status.busy) :
    State.Latched { s with status := st } :=
  ⟨hb.trans h.1, h.2⟩

theorem present_latched (s : State) (c : Presented) (h : s.Latched)
    (hc : ∀ r, c = .ok r → jobResult s.params r.job = effect s.params r.cmd s.v s.din s.acc) :
    (s.present c).Latched := by
  rcases present_cases s c with ⟨_, hp⟩ | ⟨_, e, _, hp⟩ | ⟨_, r, hr, hp⟩ <;> rw [hp]
  · exact h.withStatus (raiseError_busy .busyWr _)
  · exact h.withStatus (statusIllegal_busy e _)
  · refine ⟨rfl, ?_⟩
    rintro r' ⟨⟩
    exact hc r hr

/-- R115: a write reaches `V` and `DIN` only while nothing is latched. -/
theorem writeReg_latched (r : Reg) (v : Word) (s t : State) (h : s.Latched) (hw : writeReg r v s = .next t) :
    t.Latched := by
  have ht {u : State} (hu : writeReg r v s = .next u) : t = u := Host.Outcome.next.inj (hw.symm.trans hu)
  rcases writeReg_cases r v s with hu | ⟨_, _, hu⟩ | ⟨_, _, hu⟩ | ⟨_, hu⟩ | ⟨_, _, hu⟩ | ⟨hb, _, _, hu⟩ |
    ⟨hb, _, _, hu⟩ | ⟨_, c, hu, hc⟩ <;> obtain rfl := ht hu
  · exact h
  · exact latched_of_not_running _ rfl rfl
  · exact h
  · exact h.withStatus (statusWrite_busy v _)
  · exact h.withStatus (raiseError_busy .busyWr _)
  · exact latched_of_not_running _ hb (running_none_of_idle h.1 hb)
  · exact latched_of_not_running _ hb (running_none_of_idle h.1 hb)
  · exact present_latched s c h fun r hr => (hc r hr).2.1

theorem roundTick_latched (s : State) (h : s.Latched) : s.roundTick.Latched := by
  rcases roundTick_cases s with ⟨_, hs⟩ | ⟨r, hr, hs⟩ <;> rw [hs]
  · exact h
  · refine ⟨h.1.trans (by rw [hr]; rfl), ?_⟩
    rintro r' ⟨⟩
    exact (jobResult_jobTick _ _).trans (h.2 r hr)

theorem complete_latched (s : State) (h : s.Latched) : s.complete.Latched := by
  rcases complete_cases s with ⟨_, hs⟩ | ⟨r, _, hs⟩ <;> rw [hs]
  · exact h
  · exact latched_of_not_running _ rfl rfl

/-! ### The host and its parameters through a step -/

/-- From `s` to `t` the parameters, the host's stream and the order of turns are the same. -/
def State.SameHost (s t : State) : Prop := t.params = s.params ∧ t.hostOps = s.hostOps ∧ t.turns = s.turns

theorem present_sameHost (s : State) (c : Presented) : s.SameHost (s.present c) := by
  rcases present_cases s c with ⟨_, h⟩ | ⟨_, e, _, h⟩ | ⟨_, r, _, h⟩ <;> rw [h] <;> exact ⟨rfl, rfl, rfl⟩

theorem writeReg_sameHost (r : Reg) (v : Word) (s t : State) (hw : writeReg r v s = .next t) : s.SameHost t := by
  have ht {u : State} (hu : writeReg r v s = .next u) : t = u := Host.Outcome.next.inj (hw.symm.trans hu)
  rcases writeReg_cases r v s with hu | ⟨_, _, hu⟩ | ⟨_, _, hu⟩ | ⟨_, hu⟩ | ⟨_, _, hu⟩ | ⟨_, _, _, hu⟩ |
    ⟨_, _, _, hu⟩ | ⟨_, c, hu, _⟩ <;> obtain rfl := ht hu
  iterate 7 exact ⟨rfl, rfl, rfl⟩
  exact present_sameHost s c

theorem roundTick_sameHost (s : State) : s.SameHost s.roundTick := by
  rcases roundTick_cases s with ⟨_, h⟩ | ⟨r, _, h⟩ <;> rw [h] <;> exact ⟨rfl, rfl, rfl⟩

theorem complete_sameHost (s : State) : s.SameHost s.complete := by
  rcases complete_cases s with ⟨_, h⟩ | ⟨r, _, h⟩ <;> rw [h] <;> exact ⟨rfl, rfl, rfl⟩

/-- A host operation may go back to the head of the stream, as a poll does (R98). -/
theorem runHostOp_host (op : HostOp) (s t : State) (h : runHostOp op s = .next t) :
    t.params = s.params ∧ t.turns = s.turns ∧ t.hostOps <:+ op :: s.hostOps := by
  have hrest : s.hostOps <:+ op :: s.hostOps := List.suffix_cons op s.hostOps
  rcases runHostOp_cases op s t h with ⟨_, v, _, _, hw⟩ | ⟨ops, _, _, hops, rfl⟩
  · obtain ⟨hp, ho, htu⟩ := writeReg_sameHost _ v s t hw
    exact ⟨hp, htu, ho ▸ hrest⟩
  · rcases hops with rfl | rfl
    · exact ⟨rfl, rfl, hrest⟩
    · exact ⟨rfl, rfl, List.suffix_rfl⟩

/-- A step keeps the parameters, takes one turn off the order, and leaves the host no operation it did not have. -/
theorem step_host (s t : State) (h : step s = .next t) :
    t.params = s.params ∧ t.turns = s.turns.tail ∧ t.hostOps <:+ s.hostOps := by
  have hsame {u : State} (hu : (takeTurn s).SameHost u) :
      u.params = s.params ∧ u.turns = s.turns.tail ∧ u.hostOps <:+ s.hostOps := by
    obtain ⟨hp, ho, htu⟩ := hu
    exact ⟨hp, htu, ho ▸ List.suffix_rfl⟩
  rcases step_cases s t h with ⟨_, _, rfl⟩ | ⟨_, op, rest, hops, hop⟩ | ⟨_, rfl⟩ | ⟨_, rfl⟩ | ⟨_, rfl⟩
  · exact hsame ⟨rfl, rfl, rfl⟩
  · rw [hops]
    exact runHostOp_host op { takeTurn s with hostOps := rest } t hop
  · exact hsame (roundTick_sameHost _)
  · exact hsame (complete_sameHost _)
  · exact hsame ⟨rfl, rfl, rfl⟩

/-! ### A defined access never stops -/

/-- R71: on its turn the host issues its oldest operation. -/
theorem step_of_hostOp (s : State) (op : HostOp) (rest : List HostOp) (hn : nextTurn s = .host)
    (hops : s.hostOps = op :: rest) : step s = runHostOp op { takeTurn s with hostOps := rest } := by
  simp only [step, hn, runTurn, hostMove, takeTurn_hostOps, hops]

theorem step_of_idle_host (s : State) (hn : nextTurn s = .host) (hops : s.hostOps = []) :
    step s = .next (takeTurn s) := by
  simp only [step, hn, runTurn, hostMove, takeTurn_hostOps, hops]

theorem runHostOp_next (op : HostOp) (s : State) (h : DefinedOp s.params op) : ∃ t, runHostOp op s = .next t := by
  cases op with
  | wr size addr v =>
    obtain rfl : size = .word := h.1
    rw [runHostOp, busWrite, withOffset_defined _ addr _ h]
    exact writeReg_next _ v s
  | rd size addr =>
    obtain rfl : size = .word := h.1
    rw [runHostOp, busRead, withOffset_defined _ addr _ h]
    exact ⟨_, rfl⟩
  | poll addr =>
    rw [runHostOp, busPoll, withOffset_defined _ addr _ h]
    exact ⟨_, rfl⟩

theorem step_next_of_safe (s : State) (h : s.Safe) : ∃ t, step s = .next t := by
  cases hn : nextTurn s with
  | host =>
    cases hops : s.hostOps with
    | nil => exact ⟨_, step_of_idle_host s hn hops⟩
    | cons op rest =>
      rw [step_of_hostOp s op rest hn hops]
      exact runHostOp_next op { takeTurn s with hostOps := rest } (h op (hops ▸ List.mem_cons_self))
  | _ =>
    rw [step, hn]
    exact ⟨_, rfl⟩

/-! ### Executions end (log 4) -/

theorem step_of_nextTurn_complete (s : State) (r : Running) (hr : s.running = some r) (hn : nextTurn s = .complete) :
    step s = .next ((takeTurn s).finished (jobResult s.params r.job).1 (jobResult s.params r.job).2) := by
  rw [step, hn, runTurn, complete_of_running (takeTurn s) r hr]
  rfl

theorem nextTurn_of_running (s : State) (ht : s.turns = []) (hr : s.running.isSome) : nextTurn s = .complete := by
  rw [nextTurn, ht]
  exact if_pos hr

/-- Each step takes one turn off the order; when none is left, the execution completes. -/
theorem execution_ends (n : Nat) (s t : State) (hn : s.turns.length = n)
    (h : Host.Core.run Sys2Proof.core (n + 1) s = .next t) :
    ∃ (k : Nat) (u : State), k ≤ n + 1 ∧ Host.Core.run Sys2Proof.core k s = .next u ∧ u.running = none := by
  cases hr : s.running with
  | none => exact ⟨0, s, Nat.zero_le _, rfl, hr⟩
  | some r =>
    cases n with
    | zero =>
      have hnext : nextTurn s = .complete :=
        nextTurn_of_running s (List.eq_nil_of_length_eq_zero hn) (by rw [hr]; rfl)
      exact ⟨1, _, Nat.le_refl 1, run_succ 0 s _ (step_of_nextTurn_complete s r hr hnext), rfl⟩
    | succ n =>
      obtain ⟨u, hstep, hrun⟩ := run_next (n + 1) s t h
      obtain ⟨_, hturns, _⟩ := step_host s u hstep
      have hlen : u.turns.length = n := by rw [hturns, List.length_tail, hn, Nat.add_sub_cancel]
      obtain ⟨k, w, hk, hw, hnone⟩ := execution_ends n u t hlen hrun
      exact ⟨k + 1, w, Nat.succ_le_succ hk, (run_succ k s u hstep).trans hw, hnone⟩

/-! ### The obligations -/

/-- Settles O55: each write to a register and each of the block's turns keeps `Wf`, which does not speak of the host. -/
theorem everyStepKeepsTheStateWellFormed : Obligations.EveryStepKeepsTheStateWellFormed := by
  intro s t hs h
  exact step_keeps (fun _ _ _ _ _ hw => hw) writeReg_wf roundTick_wf complete_wf (fun u _ => resetBlock_wf u) hs h

/-- Settles O56: while a command executes no write reaches its operands, and a round keeps what its job comes to. -/
theorem everyStepKeepsTheLatchedResult : Obligations.EveryStepKeepsTheLatchedResult := by
  intro s t hs h
  exact step_keeps (fun _ _ _ _ _ hl => hl) writeReg_latched roundTick_latched complete_latched
    (fun _ _ => latched_of_not_running _ rfl rfl) hs h

/-- Settles O53: a defined access answers, and what is left of the host's stream was there before. -/
theorem definedAccessesNeverStop : Obligations.DefinedAccessesNeverStop := by
  intro s hs
  obtain ⟨t, ht⟩ := step_next_of_safe s hs
  obtain ⟨hparams, _, hops⟩ := step_host s t ht
  refine ⟨t, ht, fun op hop => ?_⟩
  rw [hparams]
  exact hs op (hops.subset hop)

/-- Settles O59: the completion's turn is `State.finished`, and the order of turns shrinks by one a step. -/
theorem completionCommitsAndExecutionsEnd : Obligations.CompletionCommitsAndExecutionsEnd :=
  ⟨step_of_nextTurn_complete, nextTurn_of_running, fun s t h => execution_ends _ s t rfl h⟩

/-- Settles O54: nothing executes after a reset, `ACC` and `DIN` are `zeros`, and the host has nothing to issue. -/
theorem resetMeetsTheInvariants : Obligations.ResetMeetsTheInvariants := by
  intro p
  exact ⟨resetBlock_wf (State.resetOf p), latched_of_not_running _ rfl rfl, nofun⟩

/-- Settles O57: the first part of `step_host`. -/
theorem noStepChangesTheParameters : Obligations.NoStepChangesTheParameters := by
  intro s t h
  exact (step_host s t h).1

end Sys2Proof.Machine

/-! PROOFS. The register window (spec 20_memory.md R60 to R71): the map, reads and writes of `V`, `ACC` and `DIN` (R22 to
R26), and the host's operations as steps (R97 to R99). -/

namespace Sys2Proof.Machine

/-! ### The map -/

/-- R61: what lies between and after the blocks of registers. -/
theorem regAt_reserved (m : AccLen) (off : Nat)
    (h : (0x010 ≤ off ∧ off < 0x020) ∨ (0x040 ≤ off ∧ off < 0x100) ∨
      (0x100 + 4 * m.words ≤ off ∧ off < 0x200) ∨ (0x200 + 4 * m.words ≤ off ∧ off < 0x1000)) :
    regAt m off = .reserved off := by
  have := four_words m
  have := words_le m
  unfold regAt
  rw [if_neg (by omega), if_neg (by omega), if_neg (by omega), if_neg (by omega), dif_neg (by omega),
    if_neg (by omega), if_neg (by omega)]

theorem withOffset_outsideWindow (p : Params) (size : AccessSize) (addr : Nat)
    (k : Nat → Host.Outcome State Fault Refusal) (h : addr < p.base ∨ p.base + 4096 ≤ addr) :
    withOffset p size addr k = .fault .outsideWindow :=
  if_pos h

/-! ### Reads -/

theorem chainGet_eq_getD (c : Chain) (i : Fin 8) : chainGet c i = (chainWords c).getD i.val 0 := by
  fin_cases i <;> rfl

/-- R22: while busy the host reads the model's next free value of `Vi` or `ACCk`. -/
theorem busRead_free (s : State) (r : Reg) (hr : regExists s.params.accLen r) (hf : readIsFree r s = true) :
    busRead .word (regAddr s.params r) s =
      .next { s.withRead (Config.freeRead s.draws) with draws := s.draws + 1 } := by
  rw [busRead_reg s r hr, readReg_free r s hf]

/-! ### Writes while idle -/

theorem writeIdle_idle (s s' : State) (hb : s.status.busy = false) : writeIdle s s' = s' := by
  rw [writeIdle, hb]
  rfl

theorem busWrite_din_idle (s : State) (k : Nat) (x : Word) (hb : s.status.busy = false)
    (hk : k < s.params.accLen.words) :
    busWrite .word (regAddr s.params (.din k)) x s = .next { s with din := s.din.set k x } := by
  rw [busWrite_din s k x hk, writeIdle_idle s _ hb]

theorem getD_set (ws : List Word) (k j : Nat) (x : Word) (hk : k < ws.length) :
    (ws.set k x).getD j 0 = if j = k then x else ws.getD j 0 := by
  by_cases hj : j = k
  · simp [hj, hk]
  · simp [List.getD_eq_getElem?_getD, List.getElem?_set_ne (Ne.symm hj), hj]

/-! ### A command word as a host operation -/

theorem step_of_cmdWrite (s : State) (w : Word) (rest : List HostOp) (i : Instr) (hn : nextTurn s = .host)
    (hops : s.hostOps = .wr .word (regAddr s.params .cmd) w :: rest) (hd : decode s.params.accLen w = .ok i) :
    step s = exec i { s with hostOps := rest, turns := s.turns.tail } := by
  rw [step_of_hostOp s _ rest hn hops]
  exact (busWrite_cmd _ w).trans (writeCmd_ok _ w i hd)

/-! ### WAIT -/

/-- R98: a poll of `STATUS` looks at `BUSY`. -/
theorem busPoll_status (s : State) :
    busPoll (regAddr s.params .status) s = .next { s.withRead (statusWord s.status) with
      hostOps := if s.status.busy then asmWait s.params :: s.hostOps else s.hostOps } := by
  have hd : DefinedAccess s.params .word (regAddr s.params .status) := defined_regOffset s.params 4 (by decide) rfl
  have hoff : regAddr s.params .status - s.params.base = 4 := Nat.add_sub_cancel_left _ _
  have hread : readValue .status s = statusWord s.status := rfl
  rw [busPoll, withOffset_defined _ _ _ hd, hoff, regAt_status]
  simp only [hread, statusWord_bit_busy, readReg_stored .status s rfl]
  cases s.status.busy <;> rfl

/-! ### LDCHUNK -/

/-- The `WR DINk` of a list of words, from index `k` on. -/
def dinWrites (p : Params) : Nat → List Word → List HostOp
  | _, [] => []
  | k, w :: ws => asmWr p (.din k) w :: dinWrites p (k + 1) ws

theorem map_asmWr_eq_dinWrites (p : Params) (ws : List Word) (k : Nat) :
    (List.range ws.length).map (fun j => asmWr p (.din (k + j)) (ws.getD j 0)) = dinWrites p k ws := by
  induction ws generalizing k with
  | nil => rfl
  | cons w ws ih =>
    rw [dinWrites, ← ih, List.length_cons, List.range_succ_eq_map, List.map_cons, List.map_map]
    simp [Function.comp_def, Nat.add_assoc, Nat.add_comm 1]

theorem asmDinWords_eq_dinWrites (p : Params) (ws : List Word) : asmDinWords p ws = dinWrites p 0 ws := by
  simp only [asmDinWords, ← map_asmWr_eq_dinWrites, Nat.zero_add]

theorem takeTurn_of_no_turns (s : State) (h : s.turns = []) : takeTurn s = s := by
  rw [takeTurn, h, List.tail_nil, ← h]

/-- `s` with other words in `DIN` and another host's stream. -/
def State.staged (s : State) (din : List Word) (ops : List HostOp) : State := { s with din := din, hostOps := ops }

/-- An idle block with an empty order of turns takes a staging write in one step. -/
theorem step_dinWrite (s : State) (k : Nat) (x : Word) (rest : List HostOp) (hb : s.status.busy = false)
    (hr : s.running = none) (ht : s.turns = []) (hk : k < s.params.accLen.words)
    (hops : s.hostOps = asmWr s.params (.din k) x :: rest) : step s = .next (s.staged (s.din.set k x) rest) := by
  have hn : nextTurn s = .host := by rw [nextTurn, ht, hr]; rfl
  rw [step_of_hostOp s _ rest hn hops, takeTurn_of_no_turns s ht]
  exact busWrite_din_idle { s with hostOps := rest } k x hb hk

/-- The writes from index `pre.length` on replace the words of `DIN` there, one a step. -/
theorem run_dinWrites (ws pre old : List Word) (rest : List HostOp) (s : State) (hb : s.status.busy = false)
    (hr : s.running = none) (ht : s.turns = []) (hdin : s.din = pre ++ old) (hlen : old.length = ws.length)
    (hfit : pre.length + ws.length ≤ s.params.accLen.words)
    (hops : s.hostOps = dinWrites s.params pre.length ws ++ rest) :
    Host.Core.run Sys2Proof.core ws.length s = .next (s.staged (pre ++ ws) rest) := by
  induction ws generalizing pre old s with
  | nil =>
    obtain rfl : old = [] := List.eq_nil_of_length_eq_zero hlen
    rw [dinWrites, List.nil_append] at hops
    rw [State.staged, ← hdin, ← hops]
    rfl
  | cons w ws ih =>
    obtain ⟨o, old, rfl⟩ := List.exists_cons_of_length_eq_add_one hlen
    have hk : pre.length < s.params.accLen.words := by rw [List.length_cons] at hfit; omega
    have hstep := step_dinWrite s pre.length w _ hb hr ht hk hops
    have hset : s.din.set pre.length w = (pre ++ [w]) ++ old := by simp [hdin]
    have hnext : (pre ++ [w]).length = pre.length + 1 := by simp
    have hfit' : (pre ++ [w]).length + ws.length ≤ s.params.accLen.words := by
      rw [List.length_cons] at hfit
      omega
    have hrun := ih (pre ++ [w]) old (s.staged (s.din.set pre.length w) (dinWrites s.params (pre.length + 1) ws ++ rest))
      hb hr ht hset (Nat.succ.inj hlen) hfit' (by rw [hnext]; rfl)
    rw [List.length_cons, run_succ _ s _ hstep]
    exact hrun.trans (by rw [List.append_assoc]; rfl)

/-! ### The obligations -/

/-- Settles O7: idle, the stored word and the store into one of the eight; busy, the free value of a register that is
there. -/
theorem chainingStateIsHostReadableAndWritable : Obligations.ChainingStateIsHostReadableAndWritable := by
  intro s i x
  refine ⟨fun hb => ⟨?_, chainSet s.v i x, ?_, ?_⟩, fun hb => busRead_free s (.v i) trivial hb⟩
  · rw [busRead_stored s (.v i) trivial hb, storedValue, chainGet_eq_getD]
  · rw [busWrite_v, writeIdle_idle s _ hb]
  · intro j
    rw [← chainGet_eq_getD, ← chainGet_eq_getD, chainSet_get]

/-- Settles O9: no read of `DINk` is free, and an idle write sets one word of the list. -/
theorem inputBufferIsReadAtAnyTimeAndWrittenIdle : Obligations.InputBufferIsReadAtAnyTimeAndWrittenIdle := by
  intro s k x hk hlen
  refine ⟨busRead_stored s (.din k) hk rfl, fun hb => ?_⟩
  exact ⟨_, busWrite_din_idle s k x hb hk, List.length_set, fun j => getD_set s.din k j x (hlen ▸ hk)⟩

/-- Settles O11: the blocks of registers at their offsets, and what lies between them. -/
theorem windowMapIsTheSpecs : Obligations.WindowMapIsTheSpecs := by
  intro m
  exact ⟨rfl, rfl, rfl, rfl, regAt_v m, regAt_din m, regAt_acc m, fun off _ h => regAt_reserved m off h,
    fun off _ h4 => regOffset_regAt m off h4⟩

/-- Settles O15: `readReg` writes two of the model's own fields, and counts no draw while idle. -/
theorem readsHaveNoSideEffect : Obligations.ReadsHaveNoSideEffect := by
  intro s addr hd
  refine ⟨_, _, withOffset_defined _ addr _ hd, fun hb => ?_⟩
  rw [readIsFree_idle _ s hb]
  rfl

/-- Settles O17: the writes of LDCHUNK are `dinWrites` from 0 on, as many as `DIN` has words. -/
theorem stagingAChunkFillsTheInputBuffer : Obligations.StagingAChunkFillsTheInputBuffer := by
  intro s x rest hb hr ht hlen hops
  have hws : (packWords s.params.accLen x).length = s.params.accLen.words := length_packWords _ x
  rw [asmLdchunk, asmDinWords_eq_dinWrites] at hops
  have hrun := run_dinWrites (packWords s.params.accLen x) [] s.din rest s hb hr ht rfl (hlen.trans hws.symm)
    (by rw [hws]; exact (Nat.zero_add _).le) hops
  rwa [hws] at hrun

/-- Settles O18: the poll of `STATUS` goes back to the stream by the bit `BUSY` of the word read. -/
theorem waitEndsWhenNotBusy : Obligations.WaitEndsWhenNotBusy := by
  intro s rest hn hops
  refine ⟨statusWord s.status, statusWord_bit_busy _, ?_⟩
  rw [step_of_hostOp s _ rest hn hops]
  exact busPoll_status { takeTurn s with hostOps := rest }

/-- Settles O2: the default parameters, and the constant of a round by round 16. -/
theorem resetInstanceHasTheDefaultConstants : Obligations.ResetInstanceHasTheDefaultConstants :=
  ⟨rfl, rfl, tConst_eq_ite paramsDefault, rfl, rfl⟩

/-- Settles O8: a read by whether it is free; the window ignores the write. -/
theorem accumulatorIsHostReadOnly : Obligations.AccumulatorIsHostReadOnly := by
  intro s k x hk
  exact ⟨fun hb => busRead_stored s (.acc k) hk hb, fun hb => busRead_free s (.acc k) hk hb, busWrite_acc s k x hk⟩

/-- Settles O14: the first test of `withOffset`. -/
theorem accessOutsideTheWindowFaults : Obligations.AccessOutsideTheWindowFaults := by
  intro s size addr v h
  exact ⟨withOffset_outsideWindow _ size addr _ h, withOffset_outsideWindow _ size addr _ h⟩

/-- Settles O25: the host's operation is a write to `CMD`, whose word decodes; `withFetchWord` puts it in front. -/
theorem stepRunsTheDecodedCommand : Obligations.StepRunsTheDecodedCommand := by
  refine ⟨step_of_cmdWrite, fun s nbits w i hd => ?_⟩
  exact step_of_cmdWrite (s.withFetchWord nbits w) (tableWord nbits w) s.hostOps i rfl rfl hd

end Sys2Proof.Machine

/-! PROOFS. Commands from acceptance to completion: the frame of a presentation (spec 40_command.md R112), the operands of
a result (R35, R195), the internal rounds (10_state.md R37), the reduction of a byte sequence (42_reduction.md R175 to
R179) and the digest of a Block (43_finalizer.md R197 to R199). -/

namespace Sys2Proof.Machine

/-! ### Presenting a command -/

/-- Everything a presented command can come to: dropped while busy, accepted, or turned away with BADK. -/
theorem exec_cases (i : Instr) (s t : State) (h : exec i s = .next t) :
    (s.status.busy = true ∧ t = s.raise .busyWr) ∨
    (s.status.busy = false ∧ i.wf s.params.accLen = true ∧ ∃ r, t = s.executing r) ∨
    (s.status.busy = false ∧ i.wf s.params.accLen = false ∧ t = s.acceptIllegal .badK) := by
  have ht {u : State} (hu : exec i s = .next u) : t = u := Host.Outcome.next.inj (h.symm.trans hu)
  cases hb : s.status.busy with
  | true => exact .inl ⟨rfl, ht (droppedWhileBusy i s hb)⟩
  | false =>
    cases hw : i.wf s.params.accLen with
    | true =>
      obtain ⟨r, hr, _, _⟩ := exec_accepts i s hb hw
      exact .inr (.inl ⟨rfl, rfl, r, ht hr⟩)
    | false => exact .inr (.inr ⟨rfl, rfl, ht (exec_rejects i s hb hw)⟩)

/-- A command turned away latches nothing for the completion. -/
theorem runCommand_illegal (i : Instr) (s : State) (hb : s.status.busy = false)
    (hw : i.wf s.params.accLen = false) : runCommand i s = (s.acceptIllegal .badK).complete := by
  rw [runCommand, exec_rejects i s hb hw]

/-- A completion reads the parameters, the latched command and the two registers it commits to. -/
theorem complete_operands (s t : State) (hp : t.params = s.params) (hr : t.running = s.running) (hv : t.v = s.v)
    (hacc : t.acc = s.acc) : t.complete.v = s.complete.v ∧ t.complete.acc = s.complete.acc := by
  cases hs : s.running with
  | none =>
    rw [complete_of_not_running s hs, complete_of_not_running t (hr.trans hs)]
    exact ⟨hv, hacc⟩
  | some r =>
    rw [complete_of_running s r hs, complete_of_running t r (hr.trans hs), hp]
    exact ⟨rfl, rfl⟩

theorem runCommand_initv (s : State) (hb : s.status.busy = false) :
    runCommand .initv s = s.finished s.params.iv s.acc :=
  runCommand_legal .initv s hb rfl

theorem runCommand_cmpacc (k : BitVec 1) (s : State) (hb : s.status.busy = false)
    (hw : (Instr.cmpacc k).wf s.params.accLen = true) :
    runCommand (.cmpacc k) s = s.finished (cf s.params s.v (chunk k.toNat s.acc)) s.acc :=
  runCommand_legal (.cmpacc k) s hb hw

theorem runCommand_final (s : State) (hb : s.status.busy = false) :
    runCommand .final s = s.finished (finalize s.params s.acc) (zeros s.params.accLen) :=
  runCommand_legal .final s hb rfl

/-! ### The internal rounds -/

/-- R37: up to 64 rounds of a call just loaded advance its registers and its round index alone. -/
theorem coreTick_iterate (p : Params) (s : Chain) (b : List Word) (q : Nat) (todo : List (List Word)) (n : Nat)
    (hn : n ≤ 64) :
    (coreTick p)^[n] (coreLoad s b q todo) = { coreLoad s b q todo with regs := cfRegs p s b n, j := n } := by
  induction n with
  | zero => rfl
  | succ n ih =>
    rw [Function.iterate_succ_apply', ih (by omega), coreTick, if_pos (by exact hn), cfRegs_succ]
    rfl

/-- R142: what the completion commits does not tell how far the rounds had gone. -/
theorem complete_roundTick (s : State) : s.roundTick.complete = s.complete := by
  rcases roundTick_cases s with ⟨_, h⟩ | ⟨r, hr, h⟩ <;> rw [h]
  rw [complete_of_running s r hr, complete_of_running _ _ rfl, jobResult_jobTick]
  rfl

theorem roundTick_withTurns (s : State) (ts : List Turn) :
    State.roundTick { s with turns := ts } = { s.roundTick with turns := ts } := by
  cases hr : s.running <;> simp only [State.roundTick, hr]

theorem complete_withTurns (s : State) (ts : List Turn) :
    State.complete { s with turns := ts } = { s.complete with turns := ts } := by
  cases hr : s.running <;> simp only [State.complete, hr]
  rfl

theorem step_round_turn (s : State) (ts : List Turn) :
    step { s with turns := .round :: ts } = .next { s.roundTick with turns := ts } :=
  (step_turn _ .round ts rfl).trans (congrArg Host.Outcome.next (roundTick_withTurns s ts))

theorem step_complete_turn (s : State) (ts : List Turn) :
    step { s with turns := .complete :: ts } = .next { s.complete with turns := ts } :=
  (step_turn _ .complete ts rfl).trans (congrArg Host.Outcome.next (complete_withTurns s ts))

theorem run_rounds_complete (n : Nat) (s : State) (ts : List Turn) :
    Host.Core.run Sys2Proof.core (n + 1) { s with turns := List.replicate n .round ++ .complete :: ts } =
      .next { s.complete with turns := ts } := by
  induction n generalizing s with
  | zero => exact run_succ 0 _ _ (step_complete_turn s ts)
  | succ n ih =>
    have hstep := step_round_turn s (List.replicate n .round ++ .complete :: ts)
    rw [List.replicate_succ, List.cons_append, run_succ _ _ _ hstep, ih s.roundTick, complete_roundTick]

/-! ### The algebra of the fold (R175)

Every law is one of XOR at each word. -/

theorem foldWords_assoc (m : AccLen) (a x y : List Word) :
    foldWords m (foldWords m a x) y = foldWords m a (foldWords m x y) := by
  apply words_ext (length_foldWords m _ _) (length_foldWords m _ _)
  intro k hk
  simp only [getD_foldWords m _ _ k hk, BitVec.xor_assoc]

theorem foldWords_right_comm (m : AccLen) (a x y : List Word) :
    foldWords m (foldWords m a x) y = foldWords m (foldWords m a y) x := by
  apply words_ext (length_foldWords m _ _) (length_foldWords m _ _)
  intro k hk
  simp only [getD_foldWords m _ _ k hk]
  ac_rfl

theorem foldWords_zeros (m : AccLen) (a : List Word) (ha : a.length = m.words) : foldWords m a (zeros m) = a := by
  apply words_ext (length_foldWords m _ _) ha
  intro k hk
  rw [getD_foldWords m _ _ k hk, getD_zeros]
  exact BitVec.xor_zero

theorem zeros_foldWords (m : AccLen) (a : List Word) (ha : a.length = m.words) : foldWords m (zeros m) a = a := by
  apply words_ext (length_foldWords m _ _) ha
  intro k hk
  rw [getD_foldWords m _ _ k hk, getD_zeros]
  exact BitVec.zero_xor

theorem foldWords_foldWords_same (m : AccLen) (a x : List Word) (ha : a.length = m.words) :
    foldWords m (foldWords m a x) x = a := by
  apply words_ext (length_foldWords m _ _) ha
  intro k hk
  rw [getD_foldWords m _ _ k hk, getD_foldWords m _ _ k hk, BitVec.xor_assoc, BitVec.xor_self, BitVec.xor_zero]

/-! ### Folding the chunks of a byte sequence -/

/-- The accumulator after the fold of a packed chunk (R67, R173). -/
def foldPacked (m : AccLen) (acc : List Word) (x : List Byte) : List Word := foldWords m acc (packWords m x)

theorem foldPacked_right_comm (m : AccLen) (acc : List Word) (x y : List Byte) :
    foldPacked m (foldPacked m acc x) y = foldPacked m (foldPacked m acc y) x :=
  foldWords_right_comm m acc _ _

theorem foldStaged_eq_finished (s : State) (x : List Byte) (hb : s.status.busy = false) :
    foldStaged s x = State.finished { s with din := packWords s.params.accLen x } s.v
      (foldPacked s.params.accLen s.acc x) :=
  runCommand_legal .fold { s with din := packWords s.params.accLen x } hb rfl

/-- `t` is idle, with the parameters, `V`, `IE` and the host's stream of `s`: what staging and folding leave alone. -/
def State.IdleLike (s t : State) : Prop :=
  t.params = s.params ∧ t.v = s.v ∧ t.status.busy = false ∧ t.ie = s.ie ∧ t.hostOps = s.hostOps

theorem foldl_foldStaged (xs : List (List Byte)) (s : State) (hb : s.status.busy = false) :
    (xs.foldl foldStaged s).acc = xs.foldl (foldPacked s.params.accLen) s.acc ∧
      s.IdleLike (xs.foldl foldStaged s) := by
  induction xs generalizing s with
  | nil => exact ⟨rfl, rfl, rfl, hb, rfl, rfl⟩
  | cons x xs ih =>
    rw [List.foldl_cons, foldStaged_eq_finished s x hb]
    exact ih _ rfl

/-- R172: folding the chunks as bytes and packing, or packing each chunk and folding words, is the same. -/
theorem packWords_foldl_foldBytes (m : AccLen) (xs : List (List Byte)) (a : List Byte) :
    packWords m (xs.foldl (foldBytes m) a) = xs.foldl (foldPacked m) (packWords m a) :=
  (List.foldl_hom (packWords m) fun a x => (packWords_foldBytes m a x).symm).symm

/-! ### The reduction as a fold over the chunks (R176) -/

/-- The `P_M` zero bytes of a cleared accumulator. -/
def zeroBytes (m : AccLen) : List Byte := List.replicate m.bytes 0

@[simp] theorem getD_zeroBytes (m : AccLen) (i : Nat) : (zeroBytes m).getD i 0 = 0 := by
  simp only [zeroBytes, List.getD_eq_getElem?_getD, List.getElem?_replicate]
  split <;> rfl

theorem packWords_zeroBytes (m : AccLen) : packWords m (zeroBytes m) = zeros m := by
  apply words_ext (length_packWords m _) (length_zeros m)
  intro k hk
  rw [getD_packWords m _ k hk, getD_zeros]
  simp only [wordAt, getD_zeroBytes]
  rfl

theorem bytes_ext {n : Nat} {a b : List Byte} (ha : a.length = n) (hb : b.length = n)
    (h : ∀ i < n, a.getD i 0 = b.getD i 0) : a = b := by
  apply List.ext_getElem (ha.trans hb.symm)
  intro i h1 h2
  rw [← List.getD_eq_getElem _ 0 h1, ← List.getD_eq_getElem _ 0 h2, h i (ha ▸ h1)]

@[simp] theorem length_reduceBlock (m : AccLen) (blk : List Byte) : (reduceBlock m blk).length = m.bytes := by
  simp [reduceBlock]

theorem getD_reduceBlock (m : AccLen) (blk : List Byte) (i : Nat) (hi : i < m.bytes) :
    (reduceBlock m blk).getD i 0 =
      (List.range (foldChunks m blk)).foldl (fun b c => b ^^^ blk.getD (c * m.bytes + i) 0) 0 := by
  simp [reduceBlock, hi]

theorem getD_foldChunk (m : AccLen) (blk : List Byte) (c i : Nat) (hi : i < m.bytes) :
    (foldChunk m blk c).getD i 0 = blk.getD (c * m.bytes + i) 0 := by
  simp [foldChunk, List.getD_eq_getElem?_getD, hi]

theorem length_foldl_foldBytes (m : AccLen) (xs : List (List Byte)) (a : List Byte) (ha : a.length = m.bytes) :
    (xs.foldl (foldBytes m) a).length = m.bytes := by
  induction xs generalizing a with
  | nil => exact ha
  | cons x xs ih => exact ih _ (length_foldBytes m a x)

theorem getD_foldl_foldBytes (m : AccLen) (xs : List (List Byte)) (a : List Byte) (i : Nat) (hi : i < m.bytes) :
    (xs.foldl (foldBytes m) a).getD i 0 = xs.foldl (fun b x => b ^^^ x.getD i 0) (a.getD i 0) :=
  (List.foldl_hom (fun a => a.getD i 0) fun a x => (getD_foldBytes m a x i hi).symm).symm

theorem reduceBlock_eq_foldl (m : AccLen) (blk : List Byte) :
    reduceBlock m blk = (blockChunks m blk).foldl (foldBytes m) (zeroBytes m) := by
  apply bytes_ext (length_reduceBlock m blk) (length_foldl_foldBytes m _ (zeroBytes m) List.length_replicate)
  intro i hi
  rw [getD_reduceBlock m blk i hi, getD_foldl_foldBytes m _ _ i hi, blockChunks, List.foldl_map]
  simp only [getD_foldChunk m blk _ i hi, getD_zeroBytes]

/-- The same XOR from the other end. -/
theorem getD_reduceBlock_foldr (m : AccLen) (blk : List Byte) (i : Nat) (hi : i < m.bytes) :
    (reduceBlock m blk).getD i 0 =
      ((List.range (foldChunks m blk)).map fun c => blk.getD (c * m.bytes + i) 0).foldr (· ^^^ ·) 0 := by
  rw [getD_reduceBlock m blk i hi, ← List.foldl_eq_foldr, List.foldl_map]

theorem bytes_pos (m : AccLen) : 0 < m.bytes := by cases m <;> decide

/-- Staging and folding the chunks of a byte sequence from `ACC = 0` leaves the packed reduction. -/
theorem foldl_foldStaged_blockChunks (s : State) (blk : List Byte) (hb : s.status.busy = false)
    (hacc : s.acc = zeros s.params.accLen) :
    ((blockChunks s.params.accLen blk).foldl foldStaged s).acc =
      packWords s.params.accLen (reduceBlock s.params.accLen blk) := by
  rw [(foldl_foldStaged _ s hb).1, reduceBlock_eq_foldl, packWords_foldl_foldBytes, packWords_zeroBytes, hacc]

/-! ### Equal chunks (R179) -/

theorem foldChunks_append (m : AccLen) (x ys : List Byte) (hx : x.length = m.bytes) :
    foldChunks m (x ++ ys) = foldChunks m ys + 1 := by
  rw [foldChunks, List.length_append, hx, Nat.add_div_left _ (bytes_pos m), foldChunks]

theorem foldChunk_append_zero (m : AccLen) (x ys : List Byte) (hx : x.length = m.bytes) :
    foldChunk m (x ++ ys) 0 = x := by
  rw [foldChunk, Nat.zero_mul, List.drop_zero, ← hx, List.take_left]

theorem foldChunk_append_succ (m : AccLen) (x ys : List Byte) (c : Nat) (hx : x.length = m.bytes) :
    foldChunk m (x ++ ys) (c + 1) = foldChunk m ys c := by
  rw [foldChunk, Nat.succ_mul, Nat.add_comm, ← hx, List.drop_length_add_append, hx, foldChunk]

theorem blockChunks_append (m : AccLen) (x ys : List Byte) (hx : x.length = m.bytes) :
    blockChunks m (x ++ ys) = x :: blockChunks m ys := by
  rw [blockChunks, foldChunks_append m x ys hx, List.range_succ_eq_map, List.map_cons, List.map_map,
    foldChunk_append_zero m x ys hx, blockChunks]
  congr 1
  exact List.map_congr_left fun c _ => foldChunk_append_succ m x ys c hx

theorem blockChunks_nil (m : AccLen) : blockChunks m [] = [] := by
  rw [blockChunks, foldChunks, List.length_nil, Nat.zero_div]
  rfl

/-- A sequence of whole chunks falls apart into them. -/
theorem blockChunks_flatten (m : AccLen) (xs : List (List Byte)) (h : ∀ x ∈ xs, x.length = m.bytes) :
    blockChunks m xs.flatten = xs := by
  induction xs with
  | nil => exact blockChunks_nil m
  | cons x xs ih =>
    rw [List.flatten_cons, blockChunks_append m x _ (h x List.mem_cons_self),
      ih fun y hy => h y (List.mem_cons_of_mem x hy)]

theorem foldBytes_foldBytes_same (m : AccLen) (a x : List Byte) (ha : a.length = m.bytes) :
    foldBytes m (foldBytes m a x) x = a := by
  apply bytes_ext (length_foldBytes m _ _) ha
  intro i hi
  rw [getD_foldBytes m _ _ i hi, getD_foldBytes m _ _ i hi, BitVec.xor_assoc, BitVec.xor_self, BitVec.xor_zero]

theorem foldl_foldBytes_replicate_even (m : AccLen) (x a : List Byte) (n : Nat) (ha : a.length = m.bytes) :
    (List.replicate (2 * n) x).foldl (foldBytes m) a = a := by
  induction n with
  | zero => rfl
  | succ n ih =>
    rw [Nat.mul_succ, List.replicate_succ, List.replicate_succ, List.foldl_cons, List.foldl_cons,
      foldBytes_foldBytes_same m a x ha, ih]

/-! ### The obligations -/

/-- Settles O26: by what a presented command can come to; only `STATUS` and the execution state differ in each case. -/
theorem presentingACommandChangesOnlyStatus : Obligations.PresentingACommandChangesOnlyStatus := by
  intro i s t h
  rcases exec_cases i s t h with ⟨hb, rfl⟩ | ⟨hb, _, r, rfl⟩ | ⟨hb, hw, rfl⟩
  · exact ⟨rfl, rfl, rfl, rfl, rfl, rfl, rfl, rfl, rfl,
      fun _ => ⟨rfl, (raiseError_busy _ _).trans hb, raiseError_done _ _⟩, fun hi => absurd (hb.symm.trans hi) nofun⟩
  · exact ⟨rfl, rfl, rfl, rfl, rfl, rfl, rfl, rfl, rfl, fun hi => absurd (hb.symm.trans hi) nofun, fun _ _ => rfl⟩
  · exact ⟨rfl, rfl, rfl, rfl, rfl, rfl, rfl, rfl, rfl, fun hi => absurd (hb.symm.trans hi) nofun,
      fun _ hi => absurd (hw.symm.trans hi) nofun⟩

/-- Settles O27: the effect a legal command commits reads neither; one turned away leaves the completion as it was. -/
theorem resultsDoNotDependOnStatusOrCtrl : Obligations.ResultsDoNotDependOnStatusOrCtrl := by
  intro i s st e hb hst
  cases hw : i.wf s.params.accLen with
  | true =>
    rw [runCommand_legal i s hb hw, runCommand_legal i { s with status := st, ie := e } hst hw]
    exact ⟨rfl, rfl⟩
  | false =>
    rw [runCommand_illegal i s hb hw, runCommand_illegal i { s with status := st, ie := e } hst hw]
    exact complete_operands _ _ rfl rfl rfl rfl

/-- Settles O40: the 64th of the iterated rounds. -/
theorem sixtyFourInternalRoundsComputeCf : Obligations.SixtyFourInternalRoundsComputeCf := by
  intro p s b q todo
  rw [coreTick_iterate p s b q todo 64 (Nat.le_refl 64)]
  exact ⟨rfl, rfl, rfl, rfl, (cf_eq_feedForward p s b).symm⟩

/-- Settles O41: induction on the rounds, each of which leaves what the completion comes to. -/
theorem internalRoundsAreUnobservable : Obligations.InternalRoundsAreUnobservable :=
  fun s n ts => run_rounds_complete n s ts

/-- Settles O43: the laws of XOR at each word. -/
theorem foldIsAssociativeCommutativeSelfInverse : Obligations.FoldIsAssociativeCommutativeSelfInverse := by
  intro m a x y ha
  exact ⟨foldWords_assoc m a x y, foldWords_right_comm m a x y, foldWords_zeros m a ha, zeros_foldWords m a ha,
    foldWords_foldWords_same m a x ha⟩

/-- Settles O44: the reduction is the byte fold over the chunks, and packing carries it to the words of `ACC`. -/
theorem foldingEveryChunkReducesTheBlock : Obligations.FoldingEveryChunkReducesTheBlock := by
  intro s blk n hb hacc hlen
  have hchunks : foldChunks s.params.accLen blk = n := by
    rw [foldChunks, hlen, Nat.mul_div_cancel _ (bytes_pos _)]
  obtain ⟨_, _, hv, hidle, hie, hops⟩ := foldl_foldStaged (blockChunks s.params.accLen blk) s hb
  refine ⟨foldl_foldStaged_blockChunks s blk hb hacc, fun i hi => ?_, hv, hidle, hie, hops⟩
  rw [getD_reduceBlock_foldr _ blk i hi, hchunks]

/-- Settles O45: the folds of two chunks commute. -/
theorem foldOrderDoesNotMatter : Obligations.FoldOrderDoesNotMatter := by
  intro s xs ys hb hperm
  rw [(foldl_foldStaged xs s hb).1, (foldl_foldStaged ys s hb).1]
  exact hperm.foldl_eq' (fun x _ y _ acc => foldPacked_right_comm _ acc x y) s.acc

/-- Settles O46: the chunks cancel in pairs. -/
theorem evenlyManyEqualChunksReduceToZero : Obligations.EvenlyManyEqualChunksReduceToZero := by
  intro m x n hx
  rw [reduceBlock_eq_foldl, blockChunks_flatten m _ fun y hy => List.eq_of_mem_replicate hy ▸ hx]
  exact foldl_foldBytes_replicate_even m x (zeroBytes m) n List.length_replicate

/-- Settles O48: FINAL's effect has `ACC` and the parameters as its only operands. -/
theorem finalDependsOnlyOnTheAccumulator : Obligations.FinalDependsOnlyOnTheAccumulator := by
  intro s t hs ht hparams hacc
  rw [runCommand_final s hs, runCommand_final t ht, ← hparams, ← hacc]
  exact ⟨rfl, rfl⟩

/-- Settles O49: the manual commands make the calls of `Finalize`, one per chunk of the accumulator. -/
theorem manualFinalizationEqualsFinal : Obligations.ManualFinalizationEqualsFinal := by
  intro s hb
  rw [runCommand_final s hb, runCommand_initv s hb]
  cases hm : s.params.accLen with
  | m64 =>
    have hw0 : (Instr.cmpacc 0).wf s.params.accLen = true := (cmpacc_wf_iff _ 0).2 nofun
    simp only
    rw [runCommand_cmpacc 0 (s.finished _ _) rfl hw0]
    exact ⟨(finalize_of_m64 _ _ hm).symm, rfl, rfl⟩
  | m128 =>
    have hw (k : BitVec 1) : (Instr.cmpacc k).wf s.params.accLen = true := (cmpacc_wf_iff _ k).2 (by simp [hm])
    simp only
    rw [runCommand_cmpacc 0 (s.finished _ _) rfl (hw 0), runCommand_cmpacc 1 ((s.finished _ _).finished _ _) rfl (hw 1)]
    exact ⟨(finalize_of_m128 _ _ hm).symm, rfl, rfl⟩

/-- Settles O50: FINAL on the packed reduction, which the folds leave in `ACC`. -/
theorem foldingABlockAndFinalGiveItsDigest : Obligations.FoldingABlockAndFinalGiveItsDigest := by
  intro s blk w hb hacc _
  obtain ⟨_, hparams, _, hidle, _, _⟩ := foldl_foldStaged (blockChunks s.params.accLen blk) s hb
  rw [runCommand_final _ hidle, hparams, foldl_foldStaged_blockChunks s blk hb hacc]
  exact ⟨rfl, rfl, rfl⟩

end Sys2Proof.Machine
